-- ==== Sys2Proof/Word.lean ====
section
/-! DEFINITION. The word types of the SCRAM engine (spec 00_scope.md rules R5, R7, R8).
Bit 0 is the least significant bit of every vector, as R7 numbers them. -/

namespace Sys2Proof

/-- One memory cell, one instruction word, the accumulator: 8 bits (R5). -/
abbrev Byte := BitVec 8

/-- A memory address, an operand field, the program counter: 4 bits (R5). -/
abbrev Addr := BitVec 4

/-- A 4-bit field that is not an address: an opcode, or an operand that is decoded and not used
(30_encoding.md R70, R72). -/
abbrev Nibble := BitVec 4

end Sys2Proof
end

