-- ==== Sys2Proof/Config.lean ====
section
/-! DEFINITION. The fixed parameters of the SCRAM engine (spec 00_scope.md rule R5).

The engine leaves no value open that an instruction could produce (93_implementation_defined.md
section 1), so this file declares no free value. Its one configuration input, MAX_IC (R6), is set by
a load and constant for a run; it is the field `maxIC` of the state (log 6). -/

namespace Sys2Proof.Config

/-- The memory has 16 cells, addresses 0 to 15 (R5, 10_state.md R29, 20_memory.md R50). -/
abbrev memorySize : Nat := 16

/-- A load's image holds exactly one byte for each cell (10_state.md R33). -/
abbrev imageLength : Nat := memorySize

/-- Arithmetic on AC is modulo 256 (00_scope.md R5, 42_arithmetic.md R140). -/
abbrev wordModulus : Nat := 256

end Sys2Proof.Config
end

