-- ==== Sys2Proof/Syntax.lean ====
section
/-! DEFINITION. The instructions of the SCRAM engine: one constructor for each of the sixteen rows of
spec/opcode_table.json (spec 30_encoding.md rules R70, R73, R75). -/

namespace Sys2Proof

/-- The instructions. `addr` is the 4-bit operand field as an address; `ignored` is the same field
where the instruction decodes and does not use it (R72, R74). It is kept, so that every byte has
exactly one instruction and every instruction exactly one byte (log 11). -/
inductive Instr where
  /-- Opcode 0: halt; the operand is ignored (43_control.md R150). -/
  | hlt (ignored : Nibble)
  /-- Opcode 1: load accumulator, direct (41_load_store.md R120). -/
  | lda (addr : Addr)
  /-- Opcode 2: load accumulator, indirect (41_load_store.md R121). -/
  | ldi (addr : Addr)
  /-- Opcode 3: store accumulator, direct (41_load_store.md R122). -/
  | sta (addr : Addr)
  /-- Opcode 4: store accumulator, indirect (41_load_store.md R123). -/
  | sti (addr : Addr)
  /-- Opcode 5: add memory to accumulator (42_arithmetic.md R141). -/
  | add (addr : Addr)
  /-- Opcode 6: subtract memory from accumulator (42_arithmetic.md R142). -/
  | sub (addr : Addr)
  /-- Opcode 7: jump (43_control.md R151). -/
  | jmp (addr : Addr)
  /-- Opcode 8: jump if the accumulator is zero (43_control.md R152). -/
  | jmz (addr : Addr)
  /-- Opcode 9: illegal (43_control.md R153). -/
  | illegal9 (ignored : Nibble)
  /-- Opcode 10: illegal (43_control.md R153). -/
  | illegal10 (ignored : Nibble)
  /-- Opcode 11: illegal (43_control.md R153). -/
  | illegal11 (ignored : Nibble)
  /-- Opcode 12: illegal (43_control.md R153). -/
  | illegal12 (ignored : Nibble)
  /-- Opcode 13: illegal (43_control.md R153). -/
  | illegal13 (ignored : Nibble)
  /-- Opcode 14: illegal (43_control.md R153). -/
  | illegal14 (ignored : Nibble)
  /-- Opcode 15: illegal (43_control.md R153). -/
  | illegal15 (ignored : Nibble)
deriving DecidableEq, Repr

end Sys2Proof
end

