-- ==== Sys2Proof/WellFormed.lean ====
section
/-! DEFINITION. What is well formed: instructions, and the two arguments of a load.

An instruction's one operand is a 4-bit vector, so the type itself says all that the encoding asks of
it ("operand field is always exactly 4 bits", 30_encoding.md R70), and every instruction is well
formed. The arguments of a load can be ill formed, and a load refuses those that are. -/

namespace Sys2Proof

/-- Every opcode admits every operand (30_encoding.md R70, R73, R74, R75). -/
def Instr.wellFormed : Instr → Bool
  | .hlt _ => true
  | .lda _ => true
  | .ldi _ => true
  | .sta _ => true
  | .sti _ => true
  | .add _ => true
  | .sub _ => true
  | .jmp _ => true
  | .jmz _ => true
  | .illegal9 _ => true
  | .illegal10 _ => true
  | .illegal11 _ => true
  | .illegal12 _ => true
  | .illegal13 _ => true
  | .illegal14 _ => true
  | .illegal15 _ => true

/-- An image is exactly 16 bytes (10_state.md R33, 70_reset_and_hazards.md R192). -/
def imageWellFormed (image : List Byte) : Bool := image.length == Config.imageLength

/-- MAX_IC is absent or a positive integer (00_scope.md R6, 70_reset_and_hazards.md R193). -/
def limitWellFormed : Option Nat → Bool
  | none => true
  | some n => n != 0

end Sys2Proof
end

