-- ==== Sys2Proof/Decode.lean ====
section
/-! DEFINITION. The decoder and the encoder, both from the opcode map of 30_encoding.md R73.

Decode is total (R71): each of the 256 bytes is one of the nine instructions or one of the seven
illegal opcodes, which are instructions of their own here, so no byte is refused and no illegal
opcode falls through to a neighbour (R75). -/

namespace Sys2Proof

/-- `inst[7:4] = inst >> 4` (R71). -/
def opcodeField (inst : Byte) : Nibble := (inst >>> 4).setWidth 4

/-- `inst[3:0] = inst & 0xF` (R71). -/
def operandField (inst : Byte) : Nibble := (inst &&& 0x0F#8).setWidth 4

/-- The opcode field selects the instruction (R73). The last line is opcode 15, the one nibble left. -/
def decode (inst : Byte) : Instr :=
  match (opcodeField inst).toNat with
  | 0 => .hlt (operandField inst)
  | 1 => .lda (operandField inst)
  | 2 => .ldi (operandField inst)
  | 3 => .sta (operandField inst)
  | 4 => .sti (operandField inst)
  | 5 => .add (operandField inst)
  | 6 => .sub (operandField inst)
  | 7 => .jmp (operandField inst)
  | 8 => .jmz (operandField inst)
  | 9 => .illegal9 (operandField inst)
  | 10 => .illegal10 (operandField inst)
  | 11 => .illegal11 (operandField inst)
  | 12 => .illegal12 (operandField inst)
  | 13 => .illegal13 (operandField inst)
  | 14 => .illegal14 (operandField inst)
  | _ => .illegal15 (operandField inst)

/-- The instruction the decoder reads from the bits `w` of a table row, bits from `nbits` up being 0.
Every instruction is one byte (R76), so it is the decoding of that byte. -/
def decodeTableWord (nbits w : Nat) : Option Instr :=
  some (decode (BitVec.ofNat 8 (w % 2 ^ nbits)))

/-- The opcode of an instruction, the first column of R73. -/
def Instr.opcode : Instr → Nibble
  | .hlt _ => 0
  | .lda _ => 1
  | .ldi _ => 2
  | .sta _ => 3
  | .sti _ => 4
  | .add _ => 5
  | .sub _ => 6
  | .jmp _ => 7
  | .jmz _ => 8
  | .illegal9 _ => 9
  | .illegal10 _ => 10
  | .illegal11 _ => 11
  | .illegal12 _ => 12
  | .illegal13 _ => 13
  | .illegal14 _ => 14
  | .illegal15 _ => 15

/-- The operand field of an instruction, used or not (R72). -/
def Instr.operand : Instr → Nibble
  | .hlt x => x
  | .lda a => a
  | .ldi a => a
  | .sta a => a
  | .sti a => a
  | .add a => a
  | .sub a => a
  | .jmp a => a
  | .jmz a => a
  | .illegal9 x => x
  | .illegal10 x => x
  | .illegal11 x => x
  | .illegal12 x => x
  | .illegal13 x => x
  | .illegal14 x => x
  | .illegal15 x => x

/-- `(opcode << 4) | (operand & 0xF)` (R70). -/
def packFields (opcode operand : Nibble) : Byte :=
  (opcode.setWidth 8 <<< 4) ||| (operand.setWidth 8 &&& 0x0F#8)

/-- The one word of an instruction (R70, R76). -/
def encode (i : Instr) : Byte := packFields i.opcode i.operand

end Sys2Proof
end

