-- ==== Sys2Proof/Machine/State.lean ====
section
/-! DEFINITION. The state of the SCRAM engine as plain data (10_state.md R20), the reasons a step or a
load can stop, and the state after reset. -/

namespace Sys2Proof.Machine

/-- Memory: the cells that do not hold what an unlisted cell reads as, by rising address
(`Memory.wf` of Ops.lean). -/
abbrev Memory := List Host.Cell

/-- The three halt causes (60_exceptions.md R171). -/
inductive HaltCause where
  /-- `HLT`: opcode 0 was executed. A normal end. -/
  | hlt
  /-- `ILLEGAL_INSTRUCTION`: opcodes 9 to 15. The engine's only runtime error. -/
  | illegalInstruction
  /-- `INSTRUCTION_LIMIT`: IC reached MAX_IC. A normal end. -/
  | instructionLimit
deriving DecidableEq, Repr

/-- The state-machine state `run` (10_state.md R25). -/
inductive RunState where
  | running
  | halted (cause : HaltCause)
deriving DecidableEq, Repr

/-- A trace record, the triple (M[0..15], AC, PC) (10_state.md R34). It holds neither IC nor the run
state. -/
structure TraceRecord where
  /-- The 16 memory bytes, in address order. -/
  mem : List Byte
  ac : Byte
  pc : Addr
deriving DecidableEq, Repr

/-- One item the engine emits: a trace record, or the halt report, which carries the cause and nothing
else (10_state.md R32, R34, R35; log 8). -/
inductive OutputItem where
  | trace (record : TraceRecord)
  | report (cause : HaltCause)
deriving DecidableEq, Repr

/-- The final state the surroundings observe of a Halted engine: M[0..15], AC, PC and IC
(10_state.md R36). -/
structure FinalState where
  mem : List Byte
  ac : Byte
  pc : Addr
  ic : Nat
deriving DecidableEq, Repr

/-- Everything the spec gives the engine. The first five fields are the record of 10_state.md R20; the
last two are the configuration and the output, which R20 keeps outside that record (log 6, log 8). -/
structure State where
  /-- M[0..15], program and data (R29). -/
  mem : Memory
  /-- The accumulator AC (R22). -/
  ac : Byte
  /-- The program counter PC (R23). -/
  pc : Addr
  /-- The instruction counter IC, unbounded (R24, log 7). -/
  ic : Nat
  /-- Running or Halted(cause) (R25). -/
  run : RunState
  /-- The instruction limit MAX_IC of this run (00_scope.md R6, 10_state.md R27). -/
  maxIC : Option Nat
  /-- What the run has emitted so far, oldest first (R32). -/
  output : List OutputItem
deriving DecidableEq, Repr

/-- Why a step stops with a fault: never. The spec gives the engine no fault: no access can fall outside
memory (20_memory.md R52), arithmetic never traps (42_arithmetic.md R140), and the illegal opcode is a
halt, which is a next state (60_exceptions.md R170; log 13). So no constructor exists. -/
inductive Fault where
deriving DecidableEq, Repr

/-- Why the model refuses. -/
inductive Refusal where
  /-- An instruction without a meaning yet; raised only by an arm of `exec`. Safe. No arm raises it. -/
  | notModelled (mnemonic : String)
  /-- Raised by `load` for an image that is not 16 bytes (70_reset_and_hazards.md R192, log 9). Safe. -/
  | imageLength
  /-- Raised by `load` for MAX_IC = 0 (70_reset_and_hazards.md R193, log 6). Safe. -/
  | limitZero
deriving DecidableEq, Repr

/-- The engine after reset. Its only reset is a load (70_reset_and_hazards.md R190); this is the load of
an image of 16 zero bytes (log 1) without a limit (log 2). AC, PC, IC, run and the output are as R38
gives them after every load. -/
def State.reset : State where
  mem := []
  ac := 0
  pc := 0
  ic := 0
  run := .running
  maxIC := none
  output := []

end Sys2Proof.Machine
end

