-- ==== Sys2Proof/Machine/Ops.lean ====
section
/-! DEFINITION. The named operations over memory, registers and output, and the halt, which is how this
engine takes its one runtime error (60_exceptions.md R170). There is no return from it (R176): only a
load leaves Halted (Transactions.lean). -/

namespace Sys2Proof.Machine

/-! ## Memory (20_memory.md) -/

/-- What a cell that the list does not name reads as (log 1). -/
def Memory.unlisted : Byte := 0x00#8

/-- The byte at an address. -/
def Memory.read : Memory → Nat → Byte
  | [], _ => Memory.unlisted
  | (k, b) :: rest, a => if k = a then b else Memory.read rest a

/-- Puts a cell before the first one of a higher address. -/
def Memory.insertCell (a : Nat) (v : Byte) : Memory → Memory
  | [] => [(a, v)]
  | (k, b) :: rest =>
    if a < k then (a, v) :: (k, b) :: rest else (k, b) :: Memory.insertCell a v rest

/-- Writes one byte and keeps the canonical form: the old entry goes, and a new one is listed only for a
value that an unlisted cell does not read as. -/
def Memory.store (m : Memory) (a : Nat) (v : Byte) : Memory :=
  let others := m.filter fun cell => cell.1 != a
  if v = Memory.unlisted then others else Memory.insertCell a v others

/-- The canonical form: addresses strictly rising and inside the 16 cells, no entry equal to what an
unlisted cell reads as. -/
def Memory.wf (m : Memory) : Bool :=
  decide (m.Pairwise fun c d => c.1 < d.1) &&
    m.all fun cell => decide (cell.1 < Config.memorySize) && cell.2 != Memory.unlisted

/-- M[0..15] in address order, as the trace and the final state show it (10_state.md R34, R36). -/
def Memory.snapshot (m : Memory) : List Byte := (List.range Config.memorySize).map m.read

/-- Places bytes in address order from an address on: `image[i]` goes to `M[i]` (20_memory.md R53). -/
def Memory.place (m : Memory) (first : Nat) : List Byte → Memory
  | [] => m
  | b :: bytes => Memory.place (m.store first b) (first + 1) bytes

/-- The memory that an image fills (70_reset_and_hazards.md R190). -/
def Memory.ofImage (image : List Byte) : Memory := Memory.place [] 0 image

/-- `MemRead(a, 1)`: one byte, no side effect, every address valid (20_memory.md R52, R55, R56). -/
def State.readByte (s : State) (a : Addr) : Byte := s.mem.read a.toNat

/-- `MemWrite(a, 1, v)`: one byte, no other effect (20_memory.md R56). -/
def State.writeByte (s : State) (a : Addr) (v : Byte) : State :=
  { s with mem := s.mem.store a.toNat v }

/-! ## Registers (10_state.md) -/

/-- `AC <- v` (R22). -/
def State.writeAc (s : State) (v : Byte) : State := { s with ac := v }

/-- `PC <- v` (R23). -/
def State.writePc (s : State) (a : Addr) : State := { s with pc := a }

/-- `IC <- n` (R24). -/
def State.writeIc (s : State) (n : Nat) : State := { s with ic := n }

/-! ## Output (10_state.md R32) -/

/-- Appends one item to what the run has emitted. -/
def State.emit (s : State) (item : OutputItem) : State := { s with output := s.output ++ [item] }

/-! ## Halting (40_execution_cycle.md R105, 60_exceptions.md R171) -/

/-- The numeric code of a halt cause, the spec's own numbering (R171, D5; log 8). -/
def HaltCause.code : HaltCause → Nat
  | .hlt => 0
  | .illegalInstruction => 1
  | .instructionLimit => 2

/-- The report text the source names for a cause (R171). -/
def HaltCause.reportText : HaltCause → String
  | .hlt => "HLT"
  | .illegalInstruction => "illegal instruction"
  | .instructionLimit => "instruction limit reached"

/-- Whether a cause is an error: only the illegal instruction is (R171). -/
def HaltCause.isError : HaltCause → Bool
  | .hlt => false
  | .illegalInstruction => true
  | .instructionLimit => false

/-- `halt(cause)`: the run state becomes Halted(cause) and the halt report is emitted; M, AC, PC and IC
keep their values (R105). That nothing later in the step runs is `State.countStep`'s part (Cycle.lean). -/
def State.halt (s : State) (cause : HaltCause) : State :=
  { s.emit (.report cause) with run := .halted cause }

/-- `raise IllegalInstruction(inst)`, the engine's only runtime error, is exactly
`halt(ILLEGAL_INSTRUCTION)` (00_scope.md R10, 60_exceptions.md R170): nothing is saved and control goes
nowhere (R175). The illegal word's operand is decoded and not used (43_control.md R153). -/
def State.raiseIllegalInstruction (s : State) : State := s.halt .illegalInstruction

end Sys2Proof.Machine
end

