-- ==== Sys2Proof/Machine/Cycle.lean ====
section
/-! DEFINITION. What the step does around the instruction's effect: 40_execution_cycle.md, parts 1, 2
and 5 (R102, R103, R107), and what an engine that is Halted does (R101). -/

namespace Sys2Proof.Machine

/-- The trace record of a state: the triple (M[0..15], AC, PC) (10_state.md R34). -/
def State.record (s : State) : TraceRecord := { mem := s.mem.snapshot, ac := s.ac, pc := s.pc }

/-- Part 1: one trace record of the state as it is before the step changes anything (R102). -/
def State.emitTrace (s : State) : State := s.emit (.trace s.record)

/-- Part 2, the read: `inst <- M[PC]` (R103). -/
def State.fetchedByte (s : State) : Byte := s.readByte s.pc

/-- `(PC + 1) mod 16` (R103, D1; log 4). -/
def nextPc (pc : Addr) : Addr := BitVec.ofNat 4 ((pc.toNat + 1) % Config.memorySize)

/-- Part 2, the increment: `PC <- (PC + 1) mod 16`, before the instruction executes (R103). -/
def State.advancePc (s : State) : State := s.writePc (nextPc s.pc)

/-- Part 5's check, after the increment: `halt(INSTRUCTION_LIMIT)` if MAX_IC is present and equal to IC
(R107, D3; log 6). -/
def State.checkLimit (s : State) : State :=
  if s.maxIC = some s.ic then s.halt .instructionLimit else s

/-- Part 5: `IC <- IC + 1` and the check, skipped after a halt, which ended the step at once
(R105, R107; log 5). -/
def State.countStep (s : State) : State :=
  match s.run with
  | .running => (s.writeIc (s.ic + 1)).checkLimit
  | .halted _ => s

/-- The rest of the step once the instruction's effect is known. -/
def finishStep : Host.Outcome State Fault Refusal → Host.Outcome State Fault Refusal
  | .next s => .next s.countStep
  | .fault r => .fault r
  | .refused r => .refused r

/-- Halted has no step: no fetch, no trace record, no change, no second report (R101). The model's step
must answer something, and answers the same state (log 3). -/
def stepHalted (s : State) : Host.Outcome State Fault Refusal := .next s

end Sys2Proof.Machine
end

