-- ==== Sys2Proof/Machine/Operands.lean ====
section
/-! DEFINITION. The operand forms of 30_encoding.md R72. The form "none" needs no definition. -/

namespace Sys2Proof.Machine

/-- Direct address: the cell `M[addr]` (LDA, ADD, SUB read it; STA writes the cell at `addr`). -/
def State.directOperand (s : State) (addr : Addr) : Byte := s.readByte addr

/-- The pointer in a byte: its low 4 bits, `b & 0xF`; its high 4 bits are ignored. -/
def pointerOf (b : Byte) : Addr := (b &&& 0x0F#8).setWidth 4

/-- Indirect address: the cell that LDI reads and STI writes, `t = M[addr] & 0xF`. -/
def State.indirectAddress (s : State) (addr : Addr) : Addr := pointerOf (s.readByte addr)

/-- Indirect operand: the cell `M[t]`, read after the pointer cell (20_memory.md R60). -/
def State.indirectOperand (s : State) (addr : Addr) : Byte := s.readByte (s.indirectAddress addr)

/-- Jump target: the address in the operand field itself, absolute. -/
def jumpTarget (addr : Addr) : Addr := addr

end Sys2Proof.Machine
end

