-- ==== Sys2Proof/Machine/Arithmetic.lean ====
section
/-! DEFINITION. ADD and SUB: 42_arithmetic.md R140 to R142. The exact integer result is computed first
and reduced modulo 256 last; carry, borrow and signed overflow are neither recorded nor trapped. -/

namespace Sys2Proof.Machine

/-- `x mod 256` as a byte, the mathematical remainder also for negative `x` (00_scope.md R8). -/
def narrowToByte (x : Int) : Byte := BitVec.ofNat 8 (x % Config.wordModulus).toNat

/-- The ALU's sum (R140, R141). -/
def aluAdd (a b : Byte) : Byte := narrowToByte ((a.toNat : Int) + (b.toNat : Int))

/-- The ALU's difference (R140, R142). -/
def aluSub (a b : Byte) : Byte := narrowToByte ((a.toNat : Int) - (b.toNat : Int))

/-- The signed view of a byte: `v` if `v < 128`, else `v - 256` (00_scope.md R9). Only a reading: no
instruction depends on it (R143). -/
def signedView (b : Byte) : Int := if b.toNat < 128 then (b.toNat : Int) else (b.toNat : Int) - 256

/-- ADD: `AC <- (AC + M[addr]) mod 256` (R141). -/
def execAdd (addr : Addr) (s : State) : Host.Outcome State Fault Refusal :=
  .next (s.writeAc (aluAdd s.ac (s.directOperand addr)))

/-- SUB: `AC <- (AC - M[addr]) mod 256` (R142). -/
def execSub (addr : Addr) (s : State) : Host.Outcome State Fault Refusal :=
  .next (s.writeAc (aluSub s.ac (s.directOperand addr)))

end Sys2Proof.Machine
end

