-- ==== Sys2Proof/Machine/Flags.lean ====
section
/-! DEFINITION. Condition tests. The engine has no flags and no condition codes, and no instruction
writes a status bit (10_state.md R26); the one test is made on AC when JMZ executes and is held in no
state. -/

namespace Sys2Proof.Machine

/-- `AC == 0`, on all 8 bits (43_control.md R152, 42_arithmetic.md R143). -/
def State.acIsZero (s : State) : Bool := s.ac == 0#8

end Sys2Proof.Machine
end

