-- ==== Sys2Proof/Machine/Control.lean ====
section
/-! DEFINITION. HLT, JMP, JMZ and the illegal opcodes: step part 4 of 43_control.md R150 to R153. PC has
already been incremented by the fetch when these run. -/

namespace Sys2Proof.Machine

/-- HLT: `halt(HLT)`, whatever the operand field holds (R150, 30_encoding.md R74). -/
def execHlt (_ignored : Nibble) (s : State) : Host.Outcome State Fault Refusal :=
  .next (s.halt .hlt)

/-- JMP: `PC <- addr` (R151). -/
def execJmp (addr : Addr) (s : State) : Host.Outcome State Fault Refusal :=
  .next (s.writePc (jumpTarget addr))

/-- JMZ: `if AC == 0 then PC <- addr` (R152). -/
def execJmz (addr : Addr) (s : State) : Host.Outcome State Fault Refusal :=
  .next (if s.acIsZero then s.writePc (jumpTarget addr) else s)

/-- Opcode 9: `raise IllegalInstruction(inst)` (R153). -/
def execIllegal9 (_ignored : Nibble) (s : State) : Host.Outcome State Fault Refusal :=
  .next s.raiseIllegalInstruction

/-- Opcode 10: `raise IllegalInstruction(inst)` (R153). -/
def execIllegal10 (_ignored : Nibble) (s : State) : Host.Outcome State Fault Refusal :=
  .next s.raiseIllegalInstruction

/-- Opcode 11: `raise IllegalInstruction(inst)` (R153). -/
def execIllegal11 (_ignored : Nibble) (s : State) : Host.Outcome State Fault Refusal :=
  .next s.raiseIllegalInstruction

/-- Opcode 12: `raise IllegalInstruction(inst)` (R153). -/
def execIllegal12 (_ignored : Nibble) (s : State) : Host.Outcome State Fault Refusal :=
  .next s.raiseIllegalInstruction

/-- Opcode 13: `raise IllegalInstruction(inst)` (R153). -/
def execIllegal13 (_ignored : Nibble) (s : State) : Host.Outcome State Fault Refusal :=
  .next s.raiseIllegalInstruction

/-- Opcode 14: `raise IllegalInstruction(inst)` (R153). -/
def execIllegal14 (_ignored : Nibble) (s : State) : Host.Outcome State Fault Refusal :=
  .next s.raiseIllegalInstruction

/-- Opcode 15: `raise IllegalInstruction(inst)` (R153). -/
def execIllegal15 (_ignored : Nibble) (s : State) : Host.Outcome State Fault Refusal :=
  .next s.raiseIllegalInstruction

end Sys2Proof.Machine
end

