-- ==== Sys2Proof/Machine/LoadStore.lean ====
section
/-! DEFINITION. LDA, LDI, STA, STI: step part 4 of 41_load_store.md R120 to R123. -/

namespace Sys2Proof.Machine

/-- LDA: `AC <- M[addr]` (R120). -/
def execLda (addr : Addr) (s : State) : Host.Outcome State Fault Refusal :=
  .next (s.writeAc (s.directOperand addr))

/-- LDI: `t <- M[addr] & 0xF ; AC <- M[t]` (R121). -/
def execLdi (addr : Addr) (s : State) : Host.Outcome State Fault Refusal :=
  .next (s.writeAc (s.indirectOperand addr))

/-- STA: `M[addr] <- AC` (R122). -/
def execSta (addr : Addr) (s : State) : Host.Outcome State Fault Refusal :=
  .next (s.writeByte addr s.ac)

/-- STI: `t <- M[addr] & 0xF ; M[t] <- AC`, the pointer read before the write (R123, 20_memory.md R60). -/
def execSti (addr : Addr) (s : State) : Host.Outcome State Fault Refusal :=
  .next (s.writeByte (s.indirectAddress addr) s.ac)

end Sys2Proof.Machine
end

