-- ==== Sys2Proof/Machine/Dispatch.lean ====
section
/-! DEFINITION. Step part 4, the dispatch (spec 40_execution_cycle.md rule R106): one arm per instruction. -/

namespace Sys2Proof.Machine

def exec (i : Instr) (s : State) : Host.Outcome State Fault Refusal :=
  match i with
  | .hlt x => Sys2Proof.Machine.execHlt x s
  | .lda a => Sys2Proof.Machine.execLda a s
  | .ldi a => Sys2Proof.Machine.execLdi a s
  | .sta a => Sys2Proof.Machine.execSta a s
  | .sti a => Sys2Proof.Machine.execSti a s
  | .add a => Sys2Proof.Machine.execAdd a s
  | .sub a => Sys2Proof.Machine.execSub a s
  | .jmp a => Sys2Proof.Machine.execJmp a s
  | .jmz a => Sys2Proof.Machine.execJmz a s
  | .illegal9 x => Sys2Proof.Machine.execIllegal9 x s
  | .illegal10 x => Sys2Proof.Machine.execIllegal10 x s
  | .illegal11 x => Sys2Proof.Machine.execIllegal11 x s
  | .illegal12 x => Sys2Proof.Machine.execIllegal12 x s
  | .illegal13 x => Sys2Proof.Machine.execIllegal13 x s
  | .illegal14 x => Sys2Proof.Machine.execIllegal14 x s
  | .illegal15 x => Sys2Proof.Machine.execIllegal15 x s

end Sys2Proof.Machine
end

