-- ==== Sys2Proof/Machine/Step.lean ====
section
/-! DEFINITION. The step, one iteration of the engine's loop (40_execution_cycle.md R110): trace, fetch,
decode, dispatch, count. It is indivisible (R109). -/

namespace Sys2Proof.Machine

/-- One step. A Running engine emits its trace record, fetches, increments PC, executes, and counts; a
Halted engine has no step. -/
def step (s : State) : Host.Outcome State Fault Refusal :=
  match s.run with
  | .halted _ => stepHalted s
  | .running =>
    finishStep (exec (decode s.emitTrace.fetchedByte) s.emitTrace.advancePc)

/-- The state with the instruction of bits `w` in the cell that the next step fetches, the cell at PC
(R103). The engine is made Running, since only a Running engine fetches (R100); a Running engine is left
Running and nothing else changes (log 15). -/
def State.withFetchWord (s : State) (nbits w : Nat) : State :=
  { s.writeByte s.pc (BitVec.ofNat 8 (w % 2 ^ nbits)) with run := .running }

end Sys2Proof.Machine
end

