-- ==== Sys2Proof/Machine/Transactions.lean ====
section
/-! DEFINITION. The transactions at the block's boundary that are no step (10_state.md R32): the load,
which is the engine's only reset, and the observation of the final state. -/

namespace Sys2Proof.Machine

/-- What an accepted load sets, every field at once (70_reset_and_hazards.md R190, 10_state.md R38). -/
def State.loaded (image : List Byte) (limit : Option Nat) : State where
  mem := Memory.ofImage image
  ac := 0
  pc := 0
  ic := 0
  run := .running
  maxIC := limit
  output := []

/-- `load(image, MAX_IC)`. An image that is not 16 bytes and a limit of 0 are refused (R192, R193). The
state before does not matter: a load that arrives while Running abandons the run, whose trace has no
halt report (10_state.md R37, D9; log 10). -/
def load (image : List Byte) (limit : Option Nat) (_before : State) : Host.Outcome State Fault Refusal :=
  if !imageWellFormed image then .refused .imageLength
  else if !limitWellFormed limit then .refused .limitZero
  else .next (State.loaded image limit)

/-- The engine after a load was offered to it: a refused load does not change its state (R192). -/
def State.offerLoad (s : State) (image : List Byte) (limit : Option Nat) : State :=
  match load image limit s with
  | .next t => t
  | .fault _ => s
  | .refused _ => s

/-- The final state, observable when the engine is Halted (10_state.md R36, D6; log 12). -/
def State.finalState (s : State) : Option FinalState :=
  match s.run with
  | .running => none
  | .halted _ => some { mem := s.mem.snapshot, ac := s.ac, pc := s.pc, ic := s.ic }

end Sys2Proof.Machine
end

