-- ==== Sys2Proof/Safety.lean ====
section
/-! DEFINITION. What counts as a safe state and a safe run, and the terms the statements use. -/

namespace Sys2Proof.Machine

/-! ## Runs -/

/-- `k` steps of the machine. -/
def runSteps (k : Nat) (s : State) : Host.Outcome State Fault Refusal :=
  Host.Core.run Sys2Proof.core k s

/-- The trace records emitted so far, oldest first (10_state.md R34). -/
def State.traces (s : State) : List TraceRecord :=
  s.output.filterMap fun item =>
    match item with
    | .trace r => some r
    | .report _ => none

/-- The halt reports emitted so far (10_state.md R35). -/
def State.reports (s : State) : List HaltCause :=
  s.output.filterMap fun item =>
    match item with
    | .trace _ => none
    | .report c => some c

/-- A counted step from `s` would bring IC to MAX_IC (40_execution_cycle.md R107). -/
def State.limitNext (s : State) : Prop := s.maxIC = some (s.ic + 1)

/-- The bytes from `lo` to `hi` and no others decode to the instruction `mk`, with the low 4 bits as its
operand: one row of the opcode map (30_encoding.md R73). -/
def OccupiesBytes (lo hi : Nat) (mk : Nibble → Instr) : Prop :=
  ∀ b : Byte, (lo ≤ b.toNat ∧ b.toNat ≤ hi) ↔ ∃ x : Nibble, decode b = mk x ∧ x.toNat = b.toNat % 16

/-- The byte at PC is the word of this opcode and operand (30_encoding.md R70). -/
def State.atPc (s : State) (opcode : Nat) (x : Nibble) : Prop :=
  (s.readByte s.pc).toNat = 16 * opcode + x.toNat

/-! ## Frames, read through the model's read of one byte -/

/-- Every cell reads in `t` as in `s`. -/
def SameMemory (s t : State) : Prop := ∀ b : Addr, t.readByte b = s.readByte b

/-- Every cell but `a` reads in `t` as in `s`. -/
def SameMemoryBut (a : Addr) (s t : State) : Prop := ∀ b : Addr, b ≠ a → t.readByte b = s.readByte b

/-- IC, run, MAX_IC and the output are unchanged: no instruction's own effect but a halt writes them. -/
def SameControl (s t : State) : Prop :=
  t.ic = s.ic ∧ t.run = s.run ∧ t.maxIC = s.maxIC ∧ t.output = s.output

/-- What a step that counted its instruction leaves in IC, MAX_IC, run and the output
(40_execution_cycle.md R102, R107). -/
def CountedStep (s t : State) : Prop :=
  t.ic = s.ic + 1 ∧ t.maxIC = s.maxIC ∧
  (s.limitNext → t.run = .halted .instructionLimit ∧
    t.output = s.output ++ [.trace s.record, .report .instructionLimit]) ∧
  (¬ s.limitNext → t.run = .running ∧ t.output = s.output ++ [.trace s.record])

/-- What a step that halted at its dispatch leaves in IC, MAX_IC, run and the output
(40_execution_cycle.md R102, R105). -/
def HaltedStep (c : HaltCause) (s t : State) : Prop :=
  t.ic = s.ic ∧ t.maxIC = s.maxIC ∧ t.run = .halted c ∧
  t.output = s.output ++ [.trace s.record, .report c]

/-- PC as the fetch leaves it: one past the instruction, modulo 16 (40_execution_cycle.md R103, D1). -/
def PcPastInstruction (s t : State) : Prop := t.pc.toNat = (s.pc.toNat + 1) % 16

/-! ## Safe states -/

/-- IC against MAX_IC: below it while Running and after HLT or an illegal opcode, equal to it at the
limit (40_execution_cycle.md R107, 60_exceptions.md R174). -/
def CountWithinLimit (s : State) : Prop :=
  match s.run with
  | .running => ∀ n, s.maxIC = some n → s.ic < n
  | .halted .hlt => ∀ n, s.maxIC = some n → s.ic < n
  | .halted .illegalInstruction => ∀ n, s.maxIC = some n → s.ic < n
  | .halted .instructionLimit => s.maxIC = some s.ic

/-- The output of a run: trace records only while Running; after a halt the one report of its cause
stands last; the number of records is the one of 40_execution_cycle.md R111. -/
def OutputFollowsProtocol (s : State) : Prop :=
  match s.run with
  | .running => ∃ records : List TraceRecord,
      s.output = records.map OutputItem.trace ∧ records.length = s.ic
  | .halted .hlt => ∃ records : List TraceRecord,
      s.output = records.map OutputItem.trace ++ [.report .hlt] ∧ records.length = s.ic + 1
  | .halted .illegalInstruction => ∃ records : List TraceRecord,
      s.output = records.map OutputItem.trace ++ [.report .illegalInstruction] ∧
        records.length = s.ic + 1
  | .halted .instructionLimit => ∃ records : List TraceRecord,
      s.output = records.map OutputItem.trace ++ [.report .instructionLimit] ∧
        records.length = s.ic

/-- After HLT or an illegal opcode the byte before PC is the one that halted (60_exceptions.md R172). -/
def HaltByteBeforePc (s : State) : Prop :=
  match s.run with
  | .running => True
  | .halted .hlt => (s.readByte (s.pc - 1)).toNat / 16 = 0
  | .halted .illegalInstruction => 9 ≤ (s.readByte (s.pc - 1)).toNat / 16
  | .halted .instructionLimit => True

/-- The states that the engine's rules keep to. -/
structure SafeState (s : State) : Prop where
  memoryCanonical : s.mem.wf = true
  limitPositive : s.maxIC ≠ some 0
  countWithinLimit : CountWithinLimit s
  outputFollowsProtocol : OutputFollowsProtocol s
  recordsWhole : ∀ r ∈ s.traces, r.mem.length = 16
  haltByteBeforePc : HaltByteBeforePc s

/-- A run that never ends in the engine's one error (93_implementation_defined.md U2): no number of
steps from `s` reaches Halted(ILLEGAL_INSTRUCTION). -/
def SafeRun (s : State) : Prop :=
  ∀ k t, runSteps k s = .next t → t.run ≠ .halted .illegalInstruction

end Sys2Proof.Machine
end

