-- ==== Sys2Proof/Safety/Pseudocode.lean ====
section
/-! DEFINITION. The whole step as the pseudocode of 40_execution_cycle.md R110 writes it, over plain
numbers and a list of 16 cells, with none of the model's operations. A statement compares the two. -/

namespace Sys2Proof.Machine

/-- The pseudocode's state: `out` holds trace records (left) and halt reports (right), oldest first. -/
structure PseudoState where
  M : List Nat
  AC : Nat
  PC : Nat
  IC : Nat
  run : RunState
  out : List ((List Nat × Nat × Nat) ⊕ HaltCause)
deriving DecidableEq, Repr

/-- `halt(cause)`. -/
def PseudoState.halt (p : PseudoState) (cause : HaltCause) : PseudoState :=
  { p with run := .halted cause, out := p.out ++ [.inr cause] }

/-- `IC <- IC + 1`, and `if limit = some n and IC == n then halt(INSTRUCTION_LIMIT)`. -/
def PseudoState.count (limit : Option Nat) (p : PseudoState) : PseudoState :=
  if limit = some (p.IC + 1) then { p with IC := p.IC + 1 }.halt .instructionLimit
  else { p with IC := p.IC + 1 }

/-- The lines of R110's `case opcode of`, each followed by the count unless it halts. -/
def PseudoState.dispatch (limit : Option Nat) (opcode addr : Nat) (p : PseudoState) : PseudoState :=
  match opcode with
  | 0 => p.halt .hlt
  | 1 => { p with AC := p.M.getD addr 0 }.count limit
  | 2 => { p with AC := p.M.getD (p.M.getD addr 0 % 16) 0 }.count limit
  | 3 => { p with M := p.M.set addr p.AC }.count limit
  | 4 => { p with M := p.M.set (p.M.getD addr 0 % 16) p.AC }.count limit
  | 5 => { p with AC := (p.AC + p.M.getD addr 0) % 256 }.count limit
  | 6 => { p with AC := (((p.AC : Int) - (p.M.getD addr 0 : Int)) % 256).toNat }.count limit
  | 7 => { p with PC := addr }.count limit
  | 8 => (if p.AC = 0 then { p with PC := addr } else p).count limit
  | _ => p.halt .illegalInstruction

/-- R110, `step(state)`: emit the trace record, fetch, increment PC, decode, dispatch. -/
def pseudoStep (limit : Option Nat) (p : PseudoState) : PseudoState :=
  PseudoState.dispatch limit (p.M.getD p.PC 0 / 16) (p.M.getD p.PC 0 % 16)
    { p with out := p.out ++ [.inl (p.M, p.AC, p.PC)], PC := (p.PC + 1) % 16 }

/-- An output item as the pseudocode's. -/
def OutputItem.view : OutputItem → (List Nat × Nat × Nat) ⊕ HaltCause
  | .trace r => .inl (r.mem.map BitVec.toNat, r.ac.toNat, r.pc.toNat)
  | .report c => .inr c

/-- The model's state read as the pseudocode's. -/
def State.view (s : State) : PseudoState where
  M := s.mem.snapshot.map BitVec.toNat
  AC := s.ac.toNat
  PC := s.pc.toNat
  IC := s.ic
  run := s.run
  out := s.output.map OutputItem.view

end Sys2Proof.Machine
end

