-- ==== Sys2Proof/Certificates/Slice0/Obligations.lean ====
section
/-! DEFINITION. The statements about the SCRAM engine, from the numbered rules of spec/.

`exec` is step part 4 alone, so in a statement about `exec` the state is the one after the fetch: its PC
is already past the instruction (41_load_store.md, opening; log 16). Statements about `step` speak of the
whole step. A statement that rests on a decision of the spec (D1, D2, D3, ...) or on a choice of the
model says so and is 'derived'. -/

open Sys2Proof Sys2Proof.Machine

/-! ## Encoding -/

/-- R70, R71: decode splits every byte into its fields, encode packs them, and each undoes the other. -/
def Obligations.DecodeAndEncodeAgree : Prop :=
  (∀ i : Instr, decode (encode i) = i) ∧
  (∀ b : Byte, encode (decode b) = b) ∧
  (∀ b : Byte, (decode b).opcode.toNat = b.toNat / 16 ∧ (decode b).operand.toNat = b.toNat % 16) ∧
  (∀ i : Instr, (encode i).toNat = i.opcode.toNat * 16 + i.operand.toNat)

/-- A few words of 95_test_vectors.md 2.1 (DE-2, DE-4, DE-5, DE-6, DE-7, DE-8, DE-9, DE-10, DE-12,
DE-13, DE-15). A sanity statement. -/
def Obligations.SampleWordsDecode : Prop :=
  decode 0b00000111#8 = .hlt 7 ∧ decode 0b00010010#8 = .lda 2 ∧ decode 0b00101011#8 = .ldi 11 ∧
  decode 0b00111111#8 = .sta 15 ∧ decode 0b01001011#8 = .sti 11 ∧ decode 0b01011101#8 = .add 13 ∧
  decode 0b01101011#8 = .sub 11 ∧ decode 0b01110000#8 = .jmp 0 ∧ decode 0b10001111#8 = .jmz 15 ∧
  decode 0b10010000#8 = .illegal9 0 ∧ decode 0b11111111#8 = .illegal15 15

/-- R74, R75 and the last row of R73: every byte 0x00 to 0x0F is HLT, and the seven illegal opcodes
occupy 0x90 to 0xFF. -/
def Obligations.HltAndIllegalOccupyTheirBytes : Prop :=
  OccupiesBytes 0x00 0x0F .hlt ∧ OccupiesBytes 0x90 0x9F .illegal9 ∧
  OccupiesBytes 0xA0 0xAF .illegal10 ∧ OccupiesBytes 0xB0 0xBF .illegal11 ∧
  OccupiesBytes 0xC0 0xCF .illegal12 ∧ OccupiesBytes 0xD0 0xDF .illegal13 ∧
  OccupiesBytes 0xE0 0xEF .illegal14 ∧ OccupiesBytes 0xF0 0xFF .illegal15

/-! ## The effect of each instruction (step part 4), with its frame -/

/-- R120: AC takes the addressed cell; nothing else changes. -/
def Obligations.LdaLoadsTheAddressedCell : Prop :=
  OccupiesBytes 0x10 0x1F .lda ∧
  ∀ (a : Addr) (s : State), ∃ t, exec (.lda a) s = .next t ∧
    t.ac = s.readByte a ∧ SameMemory s t ∧ t.pc = s.pc ∧ SameControl s t

/-- R121: AC takes the cell that the low 4 bits of the addressed cell point to; nothing else changes. -/
def Obligations.LdiLoadsThroughThePointer : Prop :=
  OccupiesBytes 0x20 0x2F .ldi ∧
  ∀ (a : Addr) (s : State), ∃ t, exec (.ldi a) s = .next t ∧
    (∀ p : Addr, p.toNat = (s.readByte a).toNat % 16 → t.ac = s.readByte p) ∧
    SameMemory s t ∧ t.pc = s.pc ∧ SameControl s t

/-- R122: the addressed cell takes AC; every other cell, AC and PC are unchanged. -/
def Obligations.StaStoresTheAccumulator : Prop :=
  OccupiesBytes 0x30 0x3F .sta ∧
  ∀ (a : Addr) (s : State), ∃ t, exec (.sta a) s = .next t ∧
    t.readByte a = s.ac ∧ SameMemoryBut a s t ∧ t.ac = s.ac ∧ t.pc = s.pc ∧ SameControl s t

/-- R123: the cell that the low 4 bits of the addressed cell point to takes AC. The address is the one
the pointer cell gives before the write, so the pointer cell itself changes only if it points to
itself. -/
def Obligations.StiStoresThroughThePointer : Prop :=
  OccupiesBytes 0x40 0x4F .sti ∧
  ∀ (a : Addr) (s : State), ∃ t, exec (.sti a) s = .next t ∧
    (s.indirectAddress a).toNat = (s.readByte a).toNat % 16 ∧
    (∀ w : Addr, s.indirectAddress a = w → t.readByte w = s.ac ∧ SameMemoryBut w s t) ∧
    (s.indirectAddress a ≠ a → t.readByte a = s.readByte a) ∧
    t.ac = s.ac ∧ t.pc = s.pc ∧ SameControl s t

/-- R141: AC takes the sum modulo 256; overflow is no error; nothing else changes. -/
def Obligations.AddWrapsModulo256 : Prop :=
  OccupiesBytes 0x50 0x5F .add ∧
  ∀ (a : Addr) (s : State), ∃ t, exec (.add a) s = .next t ∧
    t.ac.toNat = (s.ac.toNat + (s.readByte a).toNat) % 256 ∧
    SameMemory s t ∧ t.pc = s.pc ∧ SameControl s t

/-- R142: AC takes the exact integer difference reduced into 0 to 255; nothing else changes. -/
def Obligations.SubWrapsModulo256 : Prop :=
  OccupiesBytes 0x60 0x6F .sub ∧
  ∀ (a : Addr) (s : State), ∃ t, exec (.sub a) s = .next t ∧
    (t.ac.toNat : Int) = ((s.ac.toNat : Int) - ((s.readByte a).toNat : Int)) % 256 ∧
    SameMemory s t ∧ t.pc = s.pc ∧ SameControl s t

/-- R151: PC takes the operand; AC and memory are unchanged; the step counts it in IC. -/
def Obligations.JmpSetsThePc : Prop :=
  OccupiesBytes 0x70 0x7F .jmp ∧
  (∀ (a : Addr) (s : State), ∃ t, exec (.jmp a) s = .next t ∧
    t.pc = a ∧ t.ac = s.ac ∧ SameMemory s t ∧ SameControl s t) ∧
  (∀ (a : Addr) (s : State), s.run = .running → decode (s.readByte s.pc) = .jmp a →
    ∃ t, step s = .next t ∧ t.pc = a ∧ t.ac = s.ac ∧ SameMemory s t ∧ t.ic = s.ic + 1)

/-- R152: PC takes the operand when all 8 bits of AC are 0, and keeps its value after the fetch when
not; nothing else changes. -/
def Obligations.JmzJumpsOnlyWhenAcIsZero : Prop :=
  OccupiesBytes 0x80 0x8F .jmz ∧
  ∀ (a : Addr) (s : State), ∃ t, exec (.jmz a) s = .next t ∧
    (s.ac.toNat = 0 → t.pc = a) ∧ (s.ac.toNat ≠ 0 → t.pc = s.pc) ∧
    t.ac = s.ac ∧ SameMemory s t ∧ SameControl s t

/-- HLT halts with cause HLT and its report, whatever its operand, and changes nothing else: PC keeps its
value after the fetch and IC is not counted (R150; that a halt writes nothing more is R105, which the
spec marks as its own derivation). -/
def Obligations.HltHalts : Prop :=
  ∀ (x : Nibble) (s : State), ∃ t, exec (.hlt x) s = .next t ∧
    t.run = .halted .hlt ∧ t.output = s.output ++ [.report .hlt] ∧
    t.ac = s.ac ∧ t.pc = s.pc ∧ t.ic = s.ic ∧ t.maxIC = s.maxIC ∧ SameMemory s t

/-- Each of the seven illegal opcodes halts with cause ILLEGAL_INSTRUCTION and its report, whatever its
operand, and changes nothing else (R153; that IC is not counted is the spec's decision D2, log 5). -/
def Obligations.IllegalOpcodesHalt : Prop :=
  ∀ (x : Nibble) (s : State) (i : Instr),
    i ∈ [.illegal9 x, .illegal10 x, .illegal11 x, .illegal12 x, .illegal13 x, .illegal14 x,
      .illegal15 x] →
    ∃ t, exec i s = .next t ∧
      t.run = .halted .illegalInstruction ∧ t.output = s.output ++ [.report .illegalInstruction] ∧
      t.ac = s.ac ∧ t.pc = s.pc ∧ t.ic = s.ic ∧ t.maxIC = s.maxIC ∧ SameMemory s t

/-- The two's complement readings of the operands and of the sum or difference agree modulo 256, so one
operation serves both (R140; the fact is the spec's general knowledge G2). -/
def Obligations.SignedReadingsGiveTheSameBits : Prop :=
  ∀ (a : Addr) (s : State),
    (∃ t, exec (.add a) s = .next t ∧
      (signedView t.ac - (signedView s.ac + signedView (s.readByte a))) % 256 = 0) ∧
    (∃ t, exec (.sub a) s = .next t ∧
      (signedView t.ac - (signedView s.ac - signedView (s.readByte a))) % 256 = 0)

/-! ## The step -/

/-- A step of a Running engine runs the instruction that the byte at PC decodes to, on the state with the
trace record emitted and PC incremented, and then counts (R102 to R107, R110). The PC increment is modulo
16 by the spec's decision D1 (log 4). -/
def Obligations.StepRunsTheDecodedInstruction : Prop :=
  ∀ (s : State) (i : Instr), s.run = .running → i.wellFormed = true →
    decode (s.readByte s.pc) = i →
    step s = finishStep
      (exec i { s with output := s.output ++ [.trace s.record], pc := nextPc s.pc }) ∧
    (nextPc s.pc).toNat = (s.pc.toNat + 1) % 16 ∧
    (∀ t, finishStep (.next t) = .next t.countStep)

/-- The whole step of LDA and LDI from their bytes. PC past 15 is D1 (log 4), the limit check D3
(log 6). -/
def Obligations.LoadStepsFromTheirBytes : Prop :=
  ∀ (a : Addr) (s : State), s.run = .running →
    (s.atPc 1 a → ∃ t, step s = .next t ∧
      t.ac = s.readByte a ∧ SameMemory s t ∧ PcPastInstruction s t ∧ CountedStep s t) ∧
    (s.atPc 2 a → ∃ t, step s = .next t ∧
      (∀ p : Addr, p.toNat = (s.readByte a).toNat % 16 → t.ac = s.readByte p) ∧
      SameMemory s t ∧ PcPastInstruction s t ∧ CountedStep s t)

/-- The whole step of STA and STI from their bytes. The trace record shows the cell before the store.
PC past 15 is D1 (log 4), the limit check D3 (log 6). -/
def Obligations.StoreStepsFromTheirBytes : Prop :=
  ∀ (a : Addr) (s : State), s.run = .running →
    (s.atPc 3 a → ∃ t, step s = .next t ∧
      t.readByte a = s.ac ∧ SameMemoryBut a s t ∧ t.ac = s.ac ∧ PcPastInstruction s t ∧
      CountedStep s t) ∧
    (s.atPc 4 a → ∃ t, step s = .next t ∧
      (∀ w : Addr, s.indirectAddress a = w → t.readByte w = s.ac ∧ SameMemoryBut w s t) ∧
      t.ac = s.ac ∧ PcPastInstruction s t ∧ CountedStep s t)

/-- The whole step of ADD and SUB from their bytes. PC past 15 is D1 (log 4), the limit check D3
(log 6). -/
def Obligations.ArithmeticStepsFromTheirBytes : Prop :=
  ∀ (a : Addr) (s : State), s.run = .running →
    (s.atPc 5 a → ∃ t, step s = .next t ∧
      t.ac.toNat = (s.ac.toNat + (s.readByte a).toNat) % 256 ∧
      SameMemory s t ∧ PcPastInstruction s t ∧ CountedStep s t) ∧
    (s.atPc 6 a → ∃ t, step s = .next t ∧
      (t.ac.toNat : Int) = ((s.ac.toNat : Int) - ((s.readByte a).toNat : Int)) % 256 ∧
      SameMemory s t ∧ PcPastInstruction s t ∧ CountedStep s t)

/-- The whole step of JMP and JMZ from their bytes. A JMZ not taken leaves PC past itself, modulo 16 by
D1 (log 4); the limit check is D3 (log 6). -/
def Obligations.JumpStepsFromTheirBytes : Prop :=
  ∀ (a : Addr) (s : State), s.run = .running →
    (s.atPc 7 a → ∃ t, step s = .next t ∧
      t.pc = a ∧ t.ac = s.ac ∧ SameMemory s t ∧ CountedStep s t) ∧
    (s.atPc 8 a → ∃ t, step s = .next t ∧
      (s.ac = 0 → t.pc = a) ∧ (s.ac ≠ 0 → PcPastInstruction s t) ∧
      t.ac = s.ac ∧ SameMemory s t ∧ CountedStep s t)

/-- The whole step of HLT and of an illegal opcode from their bytes: the step ends at the halt, IC is not
counted (C2, D2; log 5), the report follows the trace record, PC is one past the byte (D1, log 4). -/
def Obligations.HaltingStepsFromTheirBytes : Prop :=
  ∀ (x : Nibble) (s : State), s.run = .running →
    (s.atPc 0 x → ∃ t, step s = .next t ∧
      t.ac = s.ac ∧ SameMemory s t ∧ PcPastInstruction s t ∧ HaltedStep .hlt s t) ∧
    (∀ op : Nat, 9 ≤ op → s.atPc op x → ∃ t, step s = .next t ∧
      t.ac = s.ac ∧ SameMemory s t ∧ PcPastInstruction s t ∧ HaltedStep .illegalInstruction s t)

/-- R102, R34: a step of a Running engine first emits one trace record of all 16 bytes, AC and PC as they
are before it changes anything, and no other record, also when it halts; a Halted engine emits none. -/
def Obligations.TraceRecordPrecedesEveryStep : Prop :=
  (∀ s : State, s.run = .running → ∃ (t : State) (r : TraceRecord) (rest : List OutputItem),
    step s = .next t ∧ t.output = s.output ++ .trace r :: rest ∧ t.traces = s.traces ++ [r] ∧
    r.mem.length = 16 ∧ (∀ a : Addr, r.mem[a.toNat]? = some (s.readByte a)) ∧
    r.ac = s.ac ∧ r.pc = s.pc) ∧
  (∀ (s t : State) (c : HaltCause), s.run = .halted c → step s = .next t → t.traces = s.traces)

/-- The opcode at PC alone decides how a step of a Running engine ends: HLT and an illegal opcode halt it
before the count and the limit check, opcodes 1 to 8 count, and only then can the limit halt it (R107,
R174, both resting on D2 and D3; log 5, log 6). -/
def Obligations.EveryRunningStepHaltsOrCounts : Prop :=
  ∀ s : State, s.run = .running → ∃ t, step s = .next t ∧
    ((s.readByte s.pc).toNat / 16 = 0 → HaltedStep .hlt s t) ∧
    (9 ≤ (s.readByte s.pc).toNat / 16 → HaltedStep .illegalInstruction s t) ∧
    (1 ≤ (s.readByte s.pc).toNat / 16 → (s.readByte s.pc).toNat / 16 ≤ 8 → CountedStep s t)

/-- A step changes a cell only if it runs an STA to it or an STI whose pointer names it, and halting
changes none (R65). A load makes every cell the image's, or is refused and changes none: that an image of
another length is refused, not padded, is the spec's decision D8 (log 9), and the refusal of MAX_IC = 0
is D3 (log 6). -/
def Obligations.CellsChangeOnlyByStoreOrLoad : Prop :=
  (∀ (s t : State) (a : Addr), step s = .next t → t.readByte a ≠ s.readByte a →
    s.run = .running ∧ (decode (s.readByte s.pc) = .sta a ∨
      ∃ p : Addr, decode (s.readByte s.pc) = .sti p ∧ s.indirectAddress p = a)) ∧
  (∀ (s : State) (c : HaltCause), SameMemory s (s.halt c)) ∧
  (∀ (s : State) (image : List Byte) (limit : Option Nat),
    (∀ a : Addr, image[a.toNat]? = some ((s.offerLoad image limit).readByte a)) ∨
    SameMemory s (s.offerLoad image limit))

/-- Only LDA, LDI, ADD and SUB change AC (R22's list of writers, over every step). -/
def Obligations.AcChangesOnlyByItsFourWriters : Prop :=
  ∀ s t : State, step s = .next t → t.ac ≠ s.ac →
    s.run = .running ∧ ∃ a : Addr,
      decode (s.readByte s.pc) ∈ [Instr.lda a, .ldi a, .add a, .sub a]

/-- PC after a step: the operand of a JMP or of a JMZ with AC 0, and past the instruction otherwise, also
after a halt (R23; modulo 16 by D1, log 4). -/
def Obligations.PcAfterEveryStep : Prop :=
  ∀ s t : State, s.run = .running → step s = .next t →
    (∀ a, decode (s.readByte s.pc) = .jmp a → t.pc = a) ∧
    (∀ a, decode (s.readByte s.pc) = .jmz a → s.ac = 0 → t.pc = a) ∧
    ((∀ a, decode (s.readByte s.pc) ≠ .jmp a) →
      (∀ a, decode (s.readByte s.pc) = .jmz a → s.ac ≠ 0) → PcPastInstruction s t)

/-- The output is written and never read: a step from the same engine with any other output so far gives
the same engine and emits the same items (R30, R182). -/
def Obligations.OutputNeverSteersTheEngine : Prop :=
  ∀ (s t : State) (earlier : List OutputItem), step s = .next t →
    ∃ emitted : List OutputItem, t.output = s.output ++ emitted ∧
      step { s with output := earlier } = .next { t with output := earlier ++ emitted }

/-- No instruction reads IC: without a limit, a step from the same engine with any other IC gives the
same engine but for IC, which grows by the same amount (R24, R179). -/
def Obligations.IcIsReadOnlyByTheLimitCheck : Prop :=
  ∀ (s t : State) (n : Nat), s.maxIC = none → step s = .next t →
    ∃ counted : Nat, counted ≤ 1 ∧ t.ic = s.ic + counted ∧
      step { s with ic := n } = .next { t with ic := n + counted }

/-- A store into the cell that the next step fetches is executed as the new byte, by STA and by STI
(R63, which the spec marks as derived). After an instruction at 15 that cell is 0, and running on there is
the spec's decision D1 (log 4). -/
def Obligations.StoredByteIsExecutedByTheNextStep : Prop :=
  ∀ (s t : State), s.run = .running → step s = .next t → t.run = .running →
    (decode (s.readByte s.pc) = .sta (nextPc s.pc) ∨
      ∃ p : Addr, decode (s.readByte s.pc) = .sti p ∧ s.indirectAddress p = nextPc s.pc) →
    t.pc = nextPc s.pc ∧ t.readByte t.pc = s.ac ∧
      step t = finishStep
        (exec (decode s.ac) { t with output := t.output ++ [.trace t.record], pc := nextPc t.pc })

/-- No number of steps from any state ends in a fault or a refusal (R52, R170; that a Halted engine's
step answers next is the model's choice, log 3). -/
def Obligations.NoRunFaultsOrIsRefused : Prop :=
  ∀ (k : Nat) (s : State), ∃ t, runSteps k s = .next t

/-- Halted is terminal: any number of steps leaves the whole state, the final state included, as it is
(R101, R36; that the step answers the same state is the model's choice, log 3). -/
def Obligations.HaltedEngineIsFrozen : Prop :=
  ∀ (s : State) (c : HaltCause) (k : Nat), s.run = .halted c →
    runSteps k s = .next s ∧
    s.finalState = some { mem := s.mem.snapshot, ac := s.ac, pc := s.pc, ic := s.ic }

/-- After an illegal-opcode halt the final state still names the instruction: its address is PC - 1
modulo 16 and its byte, 0x90 to 0xFF, is still there (R172, derived; PC by D1, log 4). -/
def Obligations.IllegalHaltNamesItsByte : Prop :=
  ∀ s t : State, s.run = .running → step s = .next t → t.run = .halted .illegalInstruction →
    t.pc - 1 = s.pc ∧ t.readByte (t.pc - 1) = s.readByte s.pc ∧
      0x90 ≤ (t.readByte (t.pc - 1)).toNat

/-- A JMP to its own address without a limit runs for ever: after any number of steps the engine is
Running at the same address, and it has emitted the same record at each step (R151, R107). That IC grows
by the number of steps, however many, is the spec's decision D4 (log 7). -/
def Obligations.JmpToItselfRunsForever : Prop :=
  ∀ (s : State) (k : Nat), s.run = .running → s.maxIC = none →
    decode (s.readByte s.pc) = .jmp s.pc →
    runSteps k s = .next
      { s with ic := s.ic + k, output := s.output ++ List.replicate k (.trace s.record) }

/-! ## Load and reset -/

/-- R190: an accepted load sets every field, and the memory is the image. -/
def Obligations.LoadSetsEveryField : Prop :=
  ∀ (image : List Byte) (limit : Option Nat) (s : State), image.length = 16 → limit ≠ some 0 →
    ∃ t, load image limit s = .next t ∧ (∀ a : Addr, image[a.toNat]? = some (t.readByte a)) ∧
      t.mem.snapshot = image ∧ t.ac = 0 ∧ t.pc = 0 ∧ t.ic = 0 ∧ t.run = .running ∧
      t.maxIC = limit ∧ t.output = []

/-- An image of another length is refused, and so is MAX_IC = 0; a refused load leaves the state as it
was (the spec's decisions D8 and D3; log 9, log 6). -/
def Obligations.IllFormedLoadsAreRefused : Prop :=
  (∀ (image : List Byte) (limit : Option Nat) (s : State), image.length ≠ 16 →
    load image limit s = .refused .imageLength ∧ s.offerLoad image limit = s) ∧
  (∀ (image : List Byte) (s : State), image.length = 16 →
    load image (some 0) s = .refused .limitZero ∧ s.offerLoad image (some 0) = s)

/-- The model's reset is the load of 16 zero bytes without a limit (the model's choice, log 1 and
log 2), from any state. -/
def Obligations.ResetIsTheLoadOfZeros : Prop :=
  ∀ s : State, load (List.replicate 16 0) none s = .next State.reset

/-! ## Invariants -/

/-- Canonical memories that read the same at every address are the same data (so that equality of states
is equality of what the engine holds; log 1). -/
def Obligations.CanonicalMemoriesAreEqualWhenTheyReadEqual : Prop :=
  ∀ m m' : Memory, m.wf = true → m'.wf = true →
    (∀ a : Addr, m.read a.toNat = m'.read a.toNat) → m = m'

/-- Every step keeps the memory's canonical form (log 1). -/
def Obligations.EveryStepKeepsMemoryCanonical : Prop :=
  ∀ s t : State, s.mem.wf = true → step s = .next t → t.mem.wf = true

/-- Reset is a safe state (log 1, log 2). -/
def Obligations.ResetIsSafe : Prop := SafeState State.reset

/-- Every accepted load gives a safe state. MAX_IC is not 0 because a load with 0 is refused, the spec's
decision D3 (log 6); the memory's canonical form is the model's (log 1). -/
def Obligations.EveryLoadIsSafe : Prop :=
  ∀ (image : List Byte) (limit : Option Nat) (s t : State), load image limit s = .next t →
    SafeState t

/-- Every step keeps a safe state safe: memory canonical, MAX_IC not 0, IC within the limit, the output
in its protocol with the record count of R111, the halting byte before PC (D1, D2, D3; log 4 to 6). -/
def Obligations.EveryStepKeepsSafety : Prop :=
  ∀ s t : State, SafeState s → step s = .next t → SafeState t

/-- The number of records and reports of a run from any load: IC + 1 records if it ended by HLT or an
illegal opcode, MAX_IC records if it ended at the limit, IC records while it runs; exactly one report once
it has halted, naming the cause, and none before (R111, derived; R35, D5, log 8). IC rests on the
spec's decisions D2 (log 5), D3 (log 6) and, in long runs without a limit, D4 (log 7). -/
def Obligations.RunsEmitTheirRecordsAndOneReport : Prop :=
  ∀ (image : List Byte) (limit : Option Nat) (before s t : State) (k : Nat),
    load image limit before = .next s → runSteps k s = .next t →
    (t.run = .running → t.traces.length = t.ic ∧ t.reports = []) ∧
    (∀ c, t.run = .halted c → t.reports = [c] ∧ t.output.getLast? = some (.report c)) ∧
    (t.run = .halted .hlt ∨ t.run = .halted .illegalInstruction → t.traces.length = t.ic + 1) ∧
    (t.run = .halted .instructionLimit → limit = some t.traces.length ∧ t.ic = t.traces.length)

/-- The limit bounds a run's length: a run from a load with MAX_IC = n is Halted after n steps, with IC at
most n, and with IC n only at the limit (R182, R107, R174). The limit is the spec's decision D3 (log 6),
IC after an illegal opcode D2 (log 5), the steps after the halt log 3. -/
def Obligations.LimitBoundsEveryRun : Prop :=
  ∀ (image : List Byte) (n : Nat) (before s : State), load image (some n) before = .next s →
    ∃ (t : State) (c : HaltCause), runSteps n s = .next t ∧ t.run = .halted c ∧ t.ic ≤ n ∧
      (t.ic = n ↔ c = .instructionLimit)

/-- The model's step is the pseudocode of R110 over plain numbers: reading the state, stepping and
reading again is stepping the pseudocode. The PC wrap is the spec's decision D1 (log 4), IC not counted at
an illegal opcode D2 (log 5), the limit D3 (log 6). -/
def Obligations.StepIsThePseudocode : Prop :=
  ∀ s : State, s.run = .running → ∃ t, step s = .next t ∧ t.view = pseudoStep s.maxIC s.view ∧
    t.maxIC = s.maxIC

/-! ## Halt causes and the final state -/

/-- The codes of the three causes, which of them is an error, and that the codes tell them apart (R171;
the numbers are the spec's decision D5, log 8). -/
def Obligations.HaltCausesHaveTheirCodes : Prop :=
  HaltCause.hlt.code = 0 ∧ HaltCause.illegalInstruction.code = 1 ∧
  HaltCause.instructionLimit.code = 2 ∧
  (∀ c : HaltCause, c.isError = true ↔ c = .illegalInstruction) ∧
  (∀ c d : HaltCause, c.code = d.code → c = d)

/-- The final state can be observed exactly when the engine is Halted (R36, the spec's decision D6;
log 12). -/
def Obligations.FinalStateIsObservableOnlyWhenHalted : Prop :=
  ∀ s : State, (∃ f, s.finalState = some f) ↔ ∃ c, s.run = .halted c
end

