-- ==== Sys2Proof/Laws/State.lean ====
section
/-! SUPPORT. One lemma per field per update of the state: each named operation writes its own field and
leaves the others. No later proof unfolds a record update. -/

namespace Sys2Proof.Machine

section
variable (s : State) (a p : Addr) (v : Byte) (n : Nat) (item : OutputItem) (c : HaltCause)

@[simp] theorem State.writeByte_mem : (s.writeByte a v).mem = s.mem.store a.toNat v := rfl
@[simp] theorem State.writeByte_ac : (s.writeByte a v).ac = s.ac := rfl
@[simp] theorem State.writeByte_pc : (s.writeByte a v).pc = s.pc := rfl
@[simp] theorem State.writeByte_ic : (s.writeByte a v).ic = s.ic := rfl
@[simp] theorem State.writeByte_run : (s.writeByte a v).run = s.run := rfl
@[simp] theorem State.writeByte_maxIC : (s.writeByte a v).maxIC = s.maxIC := rfl
@[simp] theorem State.writeByte_output : (s.writeByte a v).output = s.output := rfl

@[simp] theorem State.writeAc_mem : (s.writeAc v).mem = s.mem := rfl
@[simp] theorem State.writeAc_ac : (s.writeAc v).ac = v := rfl
@[simp] theorem State.writeAc_pc : (s.writeAc v).pc = s.pc := rfl
@[simp] theorem State.writeAc_ic : (s.writeAc v).ic = s.ic := rfl
@[simp] theorem State.writeAc_run : (s.writeAc v).run = s.run := rfl
@[simp] theorem State.writeAc_maxIC : (s.writeAc v).maxIC = s.maxIC := rfl
@[simp] theorem State.writeAc_output : (s.writeAc v).output = s.output := rfl
@[simp] theorem State.writeAc_readByte : (s.writeAc v).readByte a = s.readByte a := rfl

@[simp] theorem State.writePc_mem : (s.writePc p).mem = s.mem := rfl
@[simp] theorem State.writePc_ac : (s.writePc p).ac = s.ac := rfl
@[simp] theorem State.writePc_pc : (s.writePc p).pc = p := rfl
@[simp] theorem State.writePc_ic : (s.writePc p).ic = s.ic := rfl
@[simp] theorem State.writePc_run : (s.writePc p).run = s.run := rfl
@[simp] theorem State.writePc_maxIC : (s.writePc p).maxIC = s.maxIC := rfl
@[simp] theorem State.writePc_output : (s.writePc p).output = s.output := rfl
@[simp] theorem State.writePc_readByte : (s.writePc p).readByte a = s.readByte a := rfl

@[simp] theorem State.writeIc_mem : (s.writeIc n).mem = s.mem := rfl
@[simp] theorem State.writeIc_ac : (s.writeIc n).ac = s.ac := rfl
@[simp] theorem State.writeIc_pc : (s.writeIc n).pc = s.pc := rfl
@[simp] theorem State.writeIc_ic : (s.writeIc n).ic = n := rfl
@[simp] theorem State.writeIc_run : (s.writeIc n).run = s.run := rfl
@[simp] theorem State.writeIc_maxIC : (s.writeIc n).maxIC = s.maxIC := rfl
@[simp] theorem State.writeIc_output : (s.writeIc n).output = s.output := rfl
@[simp] theorem State.writeIc_readByte : (s.writeIc n).readByte a = s.readByte a := rfl

@[simp] theorem State.emit_mem : (s.emit item).mem = s.mem := rfl
@[simp] theorem State.emit_ac : (s.emit item).ac = s.ac := rfl
@[simp] theorem State.emit_pc : (s.emit item).pc = s.pc := rfl
@[simp] theorem State.emit_ic : (s.emit item).ic = s.ic := rfl
@[simp] theorem State.emit_run : (s.emit item).run = s.run := rfl
@[simp] theorem State.emit_maxIC : (s.emit item).maxIC = s.maxIC := rfl
@[simp] theorem State.emit_output : (s.emit item).output = s.output ++ [item] := rfl
@[simp] theorem State.emit_readByte : (s.emit item).readByte a = s.readByte a := rfl

@[simp] theorem State.halt_mem : (s.halt c).mem = s.mem := rfl
@[simp] theorem State.halt_ac : (s.halt c).ac = s.ac := rfl
@[simp] theorem State.halt_pc : (s.halt c).pc = s.pc := rfl
@[simp] theorem State.halt_ic : (s.halt c).ic = s.ic := rfl
@[simp] theorem State.halt_run : (s.halt c).run = .halted c := rfl
@[simp] theorem State.halt_maxIC : (s.halt c).maxIC = s.maxIC := rfl
@[simp] theorem State.halt_output : (s.halt c).output = s.output ++ [.report c] := rfl
@[simp] theorem State.halt_readByte : (s.halt c).readByte a = s.readByte a := rfl

@[simp] theorem State.emitTrace_mem : s.emitTrace.mem = s.mem := rfl
@[simp] theorem State.emitTrace_ac : s.emitTrace.ac = s.ac := rfl
@[simp] theorem State.emitTrace_pc : s.emitTrace.pc = s.pc := rfl
@[simp] theorem State.emitTrace_ic : s.emitTrace.ic = s.ic := rfl
@[simp] theorem State.emitTrace_run : s.emitTrace.run = s.run := rfl
@[simp] theorem State.emitTrace_maxIC : s.emitTrace.maxIC = s.maxIC := rfl
@[simp] theorem State.emitTrace_output : s.emitTrace.output = s.output ++ [.trace s.record] := rfl
@[simp] theorem State.emitTrace_readByte : s.emitTrace.readByte a = s.readByte a := rfl
@[simp] theorem State.emitTrace_fetchedByte : s.emitTrace.fetchedByte = s.fetchedByte := rfl

@[simp] theorem State.advancePc_mem : s.advancePc.mem = s.mem := rfl
@[simp] theorem State.advancePc_ac : s.advancePc.ac = s.ac := rfl
@[simp] theorem State.advancePc_pc : s.advancePc.pc = nextPc s.pc := rfl
@[simp] theorem State.advancePc_ic : s.advancePc.ic = s.ic := rfl
@[simp] theorem State.advancePc_run : s.advancePc.run = s.run := rfl
@[simp] theorem State.advancePc_maxIC : s.advancePc.maxIC = s.maxIC := rfl
@[simp] theorem State.advancePc_output : s.advancePc.output = s.output := rfl
@[simp] theorem State.advancePc_readByte : s.advancePc.readByte a = s.readByte a := rfl

variable (image : List Byte) (limit : Option Nat)

@[simp] theorem State.loaded_mem : (State.loaded image limit).mem = Memory.ofImage image := rfl
@[simp] theorem State.loaded_ac : (State.loaded image limit).ac = 0 := rfl
@[simp] theorem State.loaded_pc : (State.loaded image limit).pc = 0 := rfl
@[simp] theorem State.loaded_ic : (State.loaded image limit).ic = 0 := rfl
@[simp] theorem State.loaded_run : (State.loaded image limit).run = .running := rfl
@[simp] theorem State.loaded_maxIC : (State.loaded image limit).maxIC = limit := rfl
@[simp] theorem State.loaded_output : (State.loaded image limit).output = [] := rfl

end

end Sys2Proof.Machine
end

