-- ==== Sys2Proof/Laws/Memory.lean ====
section
/-! SUPPORT. The laws of memory: read over write, the canonical form is kept by every operation, what an
image places, what a snapshot shows. -/

namespace Sys2Proof.Machine

theorem Memory.read_filter_other {a b : Nat} (m : Memory) (h : b ≠ a) :
    Memory.read (m.filter fun cell => cell.1 != a) b = m.read b := by
  induction m with
  | nil => rfl
  | cons cell rest ih =>
    obtain ⟨k, v⟩ := cell
    by_cases hk : k = a
    · subst hk
      simp [Memory.read, ih, h.symm]
    · simp [Memory.read, hk, ih]

theorem Memory.read_filter_same (m : Memory) (a : Nat) :
    Memory.read (m.filter fun cell => cell.1 != a) a = Memory.unlisted := by
  induction m with
  | nil => rfl
  | cons cell rest ih =>
    obtain ⟨k, v⟩ := cell
    by_cases hk : k = a
    · simp [hk, ih]
    · simp [Memory.read, hk, ih]

theorem Memory.read_insertCell_other {a b : Nat} (m : Memory) (v : Byte) (h : b ≠ a) :
    (Memory.insertCell a v m).read b = m.read b := by
  induction m with
  | nil => simp [Memory.insertCell, Memory.read, h.symm]
  | cons cell rest ih =>
    obtain ⟨k, w⟩ := cell
    unfold Memory.insertCell
    split
    · simp [Memory.read, h.symm]
    · simp [Memory.read, ih]

theorem Memory.read_insertCell_same (m : Memory) (a : Nat) (v : Byte)
    (h : ∀ cell ∈ m, cell.1 ≠ a) : (Memory.insertCell a v m).read a = v := by
  induction m with
  | nil => simp [Memory.insertCell, Memory.read]
  | cons cell rest ih =>
    obtain ⟨k, w⟩ := cell
    have hk : k ≠ a := h (k, w) (by simp)
    unfold Memory.insertCell
    split
    · simp [Memory.read]
    · simpa [Memory.read, hk] using ih fun c hc => h c (by simp [hc])

/-- A read after a write to the same address gives the value written, in every memory. -/
@[simp] theorem Memory.read_store_same (m : Memory) (a : Nat) (v : Byte) :
    (m.store a v).read a = v := by
  unfold Memory.store
  split
  · next h => rw [Memory.read_filter_same, h]
  · exact Memory.read_insertCell_same _ a v (by simp)

/-- A write leaves every other address alone, in every memory. -/
theorem Memory.read_store_other {a b : Nat} (m : Memory) (v : Byte) (h : b ≠ a) :
    (m.store a v).read b = m.read b := by
  unfold Memory.store
  split
  · exact Memory.read_filter_other m h
  · rw [Memory.read_insertCell_other _ v h, Memory.read_filter_other m h]

/-- `Memory.wf`, unfolded once. -/
theorem Memory.wf_iff (m : Memory) : m.wf = true ↔
    (m.Pairwise fun c d => c.1 < d.1) ∧ ∀ cell ∈ m, cell.1 < 16 ∧ cell.2 ≠ Memory.unlisted := by
  simp [Memory.wf, Config.memorySize]

theorem Memory.mem_insertCell {a : Nat} {v : Byte} {m : Memory} {cell : Host.Cell} :
    cell ∈ Memory.insertCell a v m ↔ cell = (a, v) ∨ cell ∈ m := by
  induction m with
  | nil => simp [Memory.insertCell]
  | cons c rest ih =>
    unfold Memory.insertCell
    split
    · simp
    · simp [ih, or_left_comm]

theorem Memory.pairwise_insertCell (m : Memory) (a : Nat) (v : Byte)
    (hm : m.Pairwise fun c d => c.1 < d.1) (ha : ∀ cell ∈ m, cell.1 ≠ a) :
    (Memory.insertCell a v m).Pairwise fun c d => c.1 < d.1 := by
  induction m with
  | nil => simp [Memory.insertCell]
  | cons c rest ih =>
    obtain ⟨hc, hrest⟩ := List.pairwise_cons.mp hm
    have hca : c.1 ≠ a := ha c (by simp)
    unfold Memory.insertCell
    split
    · next h =>
      refine List.pairwise_cons.mpr ⟨fun d hd => ?_, hm⟩
      rcases List.mem_cons.mp hd with rfl | hd
      · exact h
      · exact lt_trans h (hc d hd)
    · next h =>
      refine List.pairwise_cons.mpr ⟨fun d hd => ?_, ih hrest fun d hd => ha d (by simp [hd])⟩
      rcases Memory.mem_insertCell.mp hd with rfl | hd
      · show c.1 < a
        omega
      · exact hc d hd

/-- A write inside the 16 cells keeps the canonical form. -/
theorem Memory.store_wf {m : Memory} (hm : m.wf = true) {a : Nat} (ha : a < 16) (v : Byte) :
    (m.store a v).wf = true := by
  rw [Memory.wf_iff] at hm ⊢
  have hp := hm.1.filter fun cell => cell.1 != a
  unfold Memory.store
  split
  · exact ⟨hp, fun cell hc => hm.2 cell (List.mem_of_mem_filter hc)⟩
  · next hv =>
    refine ⟨Memory.pairwise_insertCell _ a v hp (by simp), fun cell hc => ?_⟩
    rcases Memory.mem_insertCell.mp hc with rfl | hc
    · exact ⟨ha, hv⟩
    · exact hm.2 cell (List.mem_of_mem_filter hc)

/-- Placing bytes inside the 16 cells keeps the canonical form. -/
theorem Memory.place_wf (bytes : List Byte) {m : Memory} (hm : m.wf = true) {first : Nat}
    (h : first + bytes.length ≤ 16) : (m.place first bytes).wf = true := by
  induction bytes generalizing m first with
  | nil => exact hm
  | cons b rest ih =>
    simp only [List.length_cons] at h
    exact ih (Memory.store_wf hm (by omega) b) (by omega)

/-- The memory of a 16-byte image is canonical. -/
theorem Memory.ofImage_wf {image : List Byte} (h : image.length = 16) :
    (Memory.ofImage image).wf = true :=
  Memory.place_wf image (by decide) (by omega)

/-- The memory after reset is canonical. -/
theorem Memory.reset_wf : State.reset.mem.wf = true := by decide

theorem Memory.read_place_below (bytes : List Byte) (m : Memory) {first a : Nat} (h : a < first) :
    (m.place first bytes).read a = m.read a := by
  induction bytes generalizing m first with
  | nil => rfl
  | cons b rest ih =>
    rw [Memory.place, ih _ (by omega), Memory.read_store_other _ _ (by omega)]

theorem Memory.read_place (bytes : List Byte) (m : Memory) (first i : Nat) (h : i < bytes.length) :
    (m.place first bytes).read (first + i) = bytes[i] := by
  induction bytes generalizing m first i with
  | nil => simp at h
  | cons b rest ih =>
    cases i with
    | zero => simp [Memory.place, Memory.read_place_below]
    | succ j =>
      have hj : j < rest.length := by simpa using h
      have := ih (m.store first b) (first + 1) j hj
      simpa [Memory.place, Nat.add_assoc, Nat.add_comm 1 j] using this

/-- `M[i] = image[i]` (70_reset_and_hazards.md R190). -/
theorem Memory.read_ofImage {image : List Byte} {i : Nat} (h : i < image.length) :
    (Memory.ofImage image).read i = image[i] := by
  simpa [Memory.ofImage] using Memory.read_place image [] 0 i h

@[simp] theorem Memory.snapshot_length (m : Memory) : m.snapshot.length = 16 := by
  simp [Memory.snapshot, Config.memorySize]

theorem Memory.getElem_snapshot (m : Memory) {i : Nat} (h : i < 16) :
    m.snapshot[i]'(by simpa using h) = m.read i := by
  simp [Memory.snapshot]

/-- A snapshot shows each cell as the model reads it. -/
theorem State.getElem_snapshot (s : State) (a : Addr) :
    s.mem.snapshot[a.toNat]'(by simpa using a.isLt) = s.readByte a :=
  Memory.getElem_snapshot s.mem a.isLt

/-- A snapshot after a write is the snapshot with that byte set. -/
theorem Memory.snapshot_store (m : Memory) (a : Nat) (v : Byte) :
    (m.store a v).snapshot = m.snapshot.set a v := by
  apply List.ext_getElem
  · simp
  · intro i h _
    have hi : i < 16 := by simpa using h
    rw [Memory.getElem_snapshot _ hi, List.getElem_set]
    split
    · next he => subst he; simp
    · next he => rw [Memory.read_store_other _ _ (by omega), Memory.getElem_snapshot _ hi]

@[simp] theorem State.readByte_writeByte_same (s : State) (a : Addr) (v : Byte) :
    (s.writeByte a v).readByte a = v := by
  simp [State.readByte]

theorem State.readByte_writeByte_other {a b : Addr} (s : State) (v : Byte) (h : b ≠ a) :
    (s.writeByte a v).readByte b = s.readByte b :=
  Memory.read_store_other _ _ fun hb => h (BitVec.eq_of_toNat_eq hb)

/-- A write of one cell keeps the canonical form. -/
theorem State.writeByte_wf {s : State} (h : s.mem.wf = true) (a : Addr) (v : Byte) :
    (s.writeByte a v).mem.wf = true :=
  Memory.store_wf h a.isLt v

end Sys2Proof.Machine
end

