-- ==== Sys2Proof/Laws/Ops.lean ====
section
/-! SUPPORT. One lemma for each shared operation that says once what it can do. -/

namespace Sys2Proof

/-! ## Fields of a word -/

theorem opcodeField_packFields (op x : Nibble) : opcodeField (packFields op x) = op := by
  revert op x; decide

theorem operandField_packFields (op x : Nibble) : operandField (packFields op x) = x := by
  revert op x; decide

theorem packFields_fields (b : Byte) : packFields (opcodeField b) (operandField b) = b := by
  revert b; decide

theorem opcodeField_toNat (b : Byte) : (opcodeField b).toNat = b.toNat / 16 := by
  revert b; decide

theorem operandField_toNat (b : Byte) : (operandField b).toNat = b.toNat % 16 := by
  revert b; decide

namespace Machine

/-- Only the low 4 bits of a pointer byte are used. -/
theorem pointerOf_toNat (b : Byte) : (pointerOf b).toNat = b.toNat % 16 := by
  revert b; decide

theorem State.indirectAddress_toNat (s : State) (a : Addr) :
    (s.indirectAddress a).toNat = (s.readByte a).toNat % 16 :=
  pointerOf_toNat _

/-! ## Arithmetic -/

theorem narrowToByte_toNat (x : Int) : ((narrowToByte x).toNat : Int) = x % 256 := by
  simp only [narrowToByte, BitVec.toNat_ofNat, Config.wordModulus]
  omega

/-- The ALU's sum is the sum of bit vectors. -/
theorem aluAdd_eq (a b : Byte) : aluAdd a b = a + b := by
  apply BitVec.eq_of_toNat_eq
  have := narrowToByte_toNat ((a.toNat : Int) + (b.toNat : Int))
  rw [aluAdd, BitVec.toNat_add]
  omega

/-- The ALU's difference is the difference of bit vectors. -/
theorem aluSub_eq (a b : Byte) : aluSub a b = a - b := by
  apply BitVec.eq_of_toNat_eq
  have := narrowToByte_toNat ((a.toNat : Int) - (b.toNat : Int))
  have ha := a.isLt
  have hb := b.isLt
  rw [aluSub, BitVec.toNat_sub]
  omega

/-- The signed view is the two's complement reading of the byte. -/
theorem signedView_eq (b : Byte) : signedView b = b.toInt := by
  revert b; decide

/-! ## The zero test -/

@[simp] theorem State.acIsZero_iff (s : State) : s.acIsZero = true ↔ s.ac = 0 := by
  simp [State.acIsZero]

/-! ## The cycle -/

/-- The increment is modulo 16. -/
theorem nextPc_toNat (pc : Addr) : (nextPc pc).toNat = (pc.toNat + 1) % 16 := by
  revert pc; decide

theorem nextPc_eq (pc : Addr) : nextPc pc = pc + 1 := by
  revert pc; decide

/-- The byte before the incremented PC is the instruction's own. -/
theorem nextPc_sub_one (pc : Addr) : nextPc pc - 1 = pc := by
  revert pc; decide

@[simp] theorem State.record_ac (s : State) : s.record.ac = s.ac := rfl
@[simp] theorem State.record_pc (s : State) : s.record.pc = s.pc := rfl
@[simp] theorem State.record_mem (s : State) : s.record.mem = s.mem.snapshot := rfl

theorem State.checkLimit_reached {s : State} (h : s.maxIC = some s.ic) :
    s.checkLimit = s.halt .instructionLimit := by
  simp [State.checkLimit, h]

theorem State.checkLimit_open {s : State} (h : s.maxIC ≠ some s.ic) : s.checkLimit = s := by
  simp [State.checkLimit, h]

/-- After a halt part 5 does nothing. -/
theorem State.countStep_halted {s : State} {c : HaltCause} (h : s.run = .halted c) :
    s.countStep = s := by
  simp [State.countStep, h]

/-- Part 5 of a Running engine: IC counts, and the limit halts it or not. -/
theorem State.countStep_running {s : State} (h : s.run = .running) :
    (s.maxIC = some (s.ic + 1) ∧
      s.countStep = (s.writeIc (s.ic + 1)).halt .instructionLimit) ∨
    (s.maxIC ≠ some (s.ic + 1) ∧ s.countStep = s.writeIc (s.ic + 1)) := by
  by_cases hl : s.maxIC = some (s.ic + 1)
  · exact .inl ⟨hl, by simp only [State.countStep, h]; exact State.checkLimit_reached hl⟩
  · exact .inr ⟨hl, by simp only [State.countStep, h]; exact State.checkLimit_open hl⟩

/-- Part 5 touches neither memory nor AC nor PC nor MAX_IC. -/
theorem State.countStep_frame (s : State) :
    s.countStep.mem = s.mem ∧ s.countStep.ac = s.ac ∧ s.countStep.pc = s.pc ∧
      s.countStep.maxIC = s.maxIC := by
  cases h : s.run with
  | halted c => simp [State.countStep_halted h]
  | running => rcases State.countStep_running h with ⟨_, e⟩ | ⟨_, e⟩ <;> simp [e]

/-- The rest of a step answers next exactly when the effect did. -/
theorem finishStep_eq_next {o : Host.Outcome State Fault Refusal} {t : State} :
    finishStep o = .next t ↔ ∃ u, o = .next u ∧ u.countStep = t := by
  cases o <;> simp [finishStep]

/-! ## The load -/

/-- A load either refuses one of its arguments or sets every field. -/
theorem load_cases (image : List Byte) (limit : Option Nat) (s : State) :
    (image.length ≠ 16 ∧ load image limit s = .refused .imageLength) ∨
    (image.length = 16 ∧ limit = some 0 ∧ load image limit s = .refused .limitZero) ∨
    (image.length = 16 ∧ limit ≠ some 0 ∧
      load image limit s = .next (State.loaded image limit)) := by
  by_cases h : image.length = 16
  · cases limit with
    | none => simp [load, imageWellFormed, limitWellFormed, h]
    | some n => by_cases hn : n = 0 <;> simp [load, imageWellFormed, limitWellFormed, h, hn]
  · simp [load, imageWellFormed, h]

/-- If a load answers next, its arguments are well formed and it set every field. -/
theorem load_eq_next {image : List Byte} {limit : Option Nat} {s t : State}
    (h : load image limit s = .next t) :
    image.length = 16 ∧ limit ≠ some 0 ∧ t = State.loaded image limit := by
  rcases load_cases image limit s with ⟨_, e⟩ | ⟨_, _, e⟩ | ⟨hi, hl, e⟩
  · simp [e] at h
  · simp [e] at h
  · rw [e] at h; exact ⟨hi, hl, by simpa using h.symm⟩

end Machine

end Sys2Proof
end

