-- ==== Sys2Proof/Laws/PerInstr.lean ====
section
/-! SUPPORT. Families of statements made once per instruction. -/

namespace Sys2Proof.Laws

/-- The encoder writes the instruction's opcode and operand into their fields, and the instruction is
well formed (30_encoding.md R70, R73). -/
def EncodedFields.Statement (i : Instr) : Prop :=
  i.wellFormed = true ∧ opcodeField (encode i) = i.opcode ∧ operandField (encode i) = i.operand

theorem EncodedFields.hlt (x : Nibble) : EncodedFields.Statement (.hlt x) :=
  ⟨rfl, opcodeField_packFields _ _, operandField_packFields _ _⟩
theorem EncodedFields.lda (a : Addr) : EncodedFields.Statement (.lda a) :=
  ⟨rfl, opcodeField_packFields _ _, operandField_packFields _ _⟩
theorem EncodedFields.ldi (a : Addr) : EncodedFields.Statement (.ldi a) :=
  ⟨rfl, opcodeField_packFields _ _, operandField_packFields _ _⟩
theorem EncodedFields.sta (a : Addr) : EncodedFields.Statement (.sta a) :=
  ⟨rfl, opcodeField_packFields _ _, operandField_packFields _ _⟩
theorem EncodedFields.sti (a : Addr) : EncodedFields.Statement (.sti a) :=
  ⟨rfl, opcodeField_packFields _ _, operandField_packFields _ _⟩
theorem EncodedFields.add (a : Addr) : EncodedFields.Statement (.add a) :=
  ⟨rfl, opcodeField_packFields _ _, operandField_packFields _ _⟩
theorem EncodedFields.sub (a : Addr) : EncodedFields.Statement (.sub a) :=
  ⟨rfl, opcodeField_packFields _ _, operandField_packFields _ _⟩
theorem EncodedFields.jmp (a : Addr) : EncodedFields.Statement (.jmp a) :=
  ⟨rfl, opcodeField_packFields _ _, operandField_packFields _ _⟩
theorem EncodedFields.jmz (a : Addr) : EncodedFields.Statement (.jmz a) :=
  ⟨rfl, opcodeField_packFields _ _, operandField_packFields _ _⟩
theorem EncodedFields.illegal9 (x : Nibble) : EncodedFields.Statement (.illegal9 x) :=
  ⟨rfl, opcodeField_packFields _ _, operandField_packFields _ _⟩
theorem EncodedFields.illegal10 (x : Nibble) : EncodedFields.Statement (.illegal10 x) :=
  ⟨rfl, opcodeField_packFields _ _, operandField_packFields _ _⟩
theorem EncodedFields.illegal11 (x : Nibble) : EncodedFields.Statement (.illegal11 x) :=
  ⟨rfl, opcodeField_packFields _ _, operandField_packFields _ _⟩
theorem EncodedFields.illegal12 (x : Nibble) : EncodedFields.Statement (.illegal12 x) :=
  ⟨rfl, opcodeField_packFields _ _, operandField_packFields _ _⟩
theorem EncodedFields.illegal13 (x : Nibble) : EncodedFields.Statement (.illegal13 x) :=
  ⟨rfl, opcodeField_packFields _ _, operandField_packFields _ _⟩
theorem EncodedFields.illegal14 (x : Nibble) : EncodedFields.Statement (.illegal14 x) :=
  ⟨rfl, opcodeField_packFields _ _, operandField_packFields _ _⟩
theorem EncodedFields.illegal15 (x : Nibble) : EncodedFields.Statement (.illegal15 x) :=
  ⟨rfl, opcodeField_packFields _ _, operandField_packFields _ _⟩

end Sys2Proof.Laws
end

