-- ==== Sys2Proof/Laws/Run.lean ====
section
/-! SUPPORT. Runs, one step at a time. -/

namespace Sys2Proof.Machine

@[simp] theorem runSteps_zero (s : State) : runSteps 0 s = .next s := rfl

/-- A run of one more step starts with the step. -/
theorem runSteps_succ {s t : State} (k : Nat) (h : step s = .next t) :
    runSteps (k + 1) s = runSteps k t := by
  have h' : Sys2Proof.core.step s = .next t := h
  simp only [runSteps, Host.Core.run, h']
  rfl

/-- A state is Running or Halted with some cause. -/
theorem State.run_cases (s : State) : s.run = .running ∨ ∃ c, s.run = .halted c := by
  cases s.run <;> simp

/-- Part 5 of a step in the terms of the statements: an effect that left the engine Running, from a state
whose trace record is emitted, is counted. -/
theorem State.countStep_countedStep {s u : State} (hr : u.run = .running) (hi : u.ic = s.ic)
    (hm : u.maxIC = s.maxIC) (ho : u.output = s.output ++ [.trace s.record]) :
    CountedStep s u.countStep := by
  rcases State.countStep_running hr with ⟨h, e⟩ | ⟨h, e⟩ <;> rw [e] <;> rw [hi, hm] at h
  · exact ⟨by simp [hi], by simp [hm], fun _ => by simp [ho], fun hn => absurd h hn⟩
  · exact ⟨by simp [hi], by simp [hm], fun hn => absurd hn h, fun _ => by simp [ho, hr]⟩

end Sys2Proof.Machine
end

