-- ==== Sys2Proof/Tests/Slice0.lean ====
section
/-! SUPPORT. The author's own tests. Expected values come from spec/95_test_vectors.md (the vector is
named at each test) or from the encodings of 30_encoding.md R73, never from the model. -/

namespace Sys2Proof.Machine

/-! ## Helpers -/

/-- A Running engine with these cells, AC and PC, and everything else as after reset. -/
def engineAt (mem : Memory) (ac : Byte) (pc : Addr) : State :=
  { State.reset with mem := mem, ac := ac, pc := pc }

/-- One observation of the next state, or none where there is none. -/
def seen {α : Type} (o : Host.Outcome State Fault Refusal) (look : State → α) : Option α :=
  match o with
  | .next t => some (look t)
  | .fault _ => none
  | .refused _ => none

/-! ## Well-formedness: each check refuses an ill-formed term -/

theorem test_image_of_15_bytes_is_ill_formed :
    imageWellFormed (List.replicate 15 0) = false := by decide
theorem test_image_of_17_bytes_is_ill_formed :
    imageWellFormed (List.replicate 17 0) = false := by decide
theorem test_image_of_16_bytes_is_well_formed :
    imageWellFormed (List.replicate 16 0) = true := by decide
theorem test_limit_0_is_ill_formed : limitWellFormed (some 0) = false := by decide
theorem test_limit_1_and_none_are_well_formed :
    limitWellFormed (some 1) = true ∧ limitWellFormed none = true := by decide

/-! ## Decoding: each constructor from a word written out (R73; 95_test_vectors.md 2.1) -/

theorem test_decode_hlt : decode 0b00000111#8 = .hlt 7 := by decide -- DE-2
theorem test_decode_lda : decode 0b00010010#8 = .lda 2 := by decide -- DE-4
theorem test_decode_ldi : decode 0b00101011#8 = .ldi 11 := by decide -- DE-5
theorem test_decode_sta : decode 0b00111111#8 = .sta 15 := by decide -- DE-6
theorem test_decode_sti : decode 0b01001011#8 = .sti 11 := by decide -- DE-7
theorem test_decode_add : decode 0b01011101#8 = .add 13 := by decide -- DE-8
theorem test_decode_sub : decode 0b01101011#8 = .sub 11 := by decide -- DE-9
theorem test_decode_jmp : decode 0b01110000#8 = .jmp 0 := by decide -- DE-10
theorem test_decode_jmz : decode 0b10001000#8 = .jmz 8 := by decide -- DE-11
theorem test_decode_illegal9 : decode 0b10011010#8 = .illegal9 10 := by decide -- program P5, 0x9A
theorem test_decode_illegal10 : decode 0b10100001#8 = .illegal10 1 := by decide -- R73
theorem test_decode_illegal11 : decode 0b10110010#8 = .illegal11 2 := by decide -- R73
theorem test_decode_illegal12 : decode 0b11001000#8 = .illegal12 8 := by decide -- DE-14
theorem test_decode_illegal13 : decode 0b11010100#8 = .illegal13 4 := by decide -- R73
theorem test_decode_illegal14 : decode 0b11100101#8 = .illegal14 5 := by decide -- R73
theorem test_decode_illegal15 : decode 0b11111111#8 = .illegal15 15 := by decide -- DE-15
theorem test_encode_add_13 : encode (.add 13) = 0x5D#8 := by decide -- S-ROUNDTRIP
theorem test_encode_hlt_as_the_assembler : encode (.hlt 0) = 0x00#8 := by decide -- R83
theorem test_decodeTableWord_sti : decodeTableWord 8 0x4B = some (.sti 11) := by decide -- DE-7

/-! ## One step per instruction (95_test_vectors.md 2.2 to 2.4) -/

/-- LS-2: LDA of its own cell loads its own byte. -/
theorem test_lda_own_cell :
    seen (step (engineAt [(3, 0x13)] 0x00 3)) (fun t => (t.ac, t.pc, t.ic)) = some (0x13, 4, 1) := by
  decide
/-- LS-4: only the pointer's low nibble is used. -/
theorem test_ldi_low_nibble :
    seen (step (engineAt [(0, 0x28), (8, 0x39), (9, 0x7F)] 0 0)) (fun t => (t.ac, t.pc)) =
      some (0x7F, 1) := by decide
/-- LS-5: a pointer that names its own cell. -/
theorem test_ldi_pointer_names_itself :
    seen (step (engineAt [(0, 0x26), (6, 0xA6)] 0 0)) (fun t => t.ac) = some 0xA6 := by decide
/-- LS-7. -/
theorem test_sta_stores :
    seen (step (engineAt [(0, 0x3F)] 0x2A 0)) (fun t => (t.readByte 15, t.ac, t.pc)) =
      some (0x2A, 0x2A, 1) := by decide
/-- LS-8: storing 0 leaves no entry, so the memory stays canonical. -/
theorem test_sta_zero_is_canonical :
    seen (step (engineAt [(0, 0x31), (1, 0x5F)] 0x00 0)) (fun t => t.mem) = some [(0, 0x31)] := by
  decide
/-- LS-10. -/
theorem test_sti_stores_through_the_pointer :
    seen (step (engineAt [(0, 0x4B), (11, 0xFE)] 0x80 0))
      (fun t => (t.readByte 14, t.readByte 11)) = some (0x80, 0xFE) := by decide
/-- LS-11: the pointer cell is overwritten. -/
theorem test_sti_pointer_names_itself :
    seen (step (engineAt [(0, 0x45), (5, 0x05)] 0x99 0)) (fun t => t.readByte 5) = some 0x99 := by
  decide
/-- AR-1 (the source's example). -/
theorem test_add_wraps :
    seen (step (engineAt [(0, 0x51), (1, 10)] 250 0)) (fun t => t.ac) = some 4 := by decide
/-- AR-7: ADD of its own cell. -/
theorem test_add_own_cell :
    seen (step (engineAt [(3, 0x53)] 0x10 3)) (fun t => t.ac) = some 0x63 := by decide
/-- AR-8 (the source's example). -/
theorem test_sub_borrows :
    seen (step (engineAt [(0, 0x61), (1, 5)] 0 0)) (fun t => t.ac) = some 251 := by decide
/-- AR-12. -/
theorem test_sub_operand_order :
    seen (step (engineAt [(0, 0x61), (1, 0xFF)] 0x01 0)) (fun t => t.ac) = some 0x02 := by decide
/-- CT-4. -/
theorem test_jmp :
    seen (step (engineAt [(3, 0x78)] 0x55 3)) (fun t => (t.pc, t.ac, t.ic)) = some (8, 0x55, 1) := by
  decide
/-- CT-7. -/
theorem test_jmz_taken :
    seen (step (engineAt [(2, 0x89)] 0x00 2)) (fun t => (t.pc, t.ic)) = some (9, 1) := by decide
/-- CT-9: 0x80 is not zero. -/
theorem test_jmz_not_taken :
    seen (step (engineAt [(2, 0x89)] 0x80 2)) (fun t => (t.pc, t.ic)) = some (3, 1) := by decide
/-- CT-2: a non-zero operand. -/
theorem test_hlt :
    seen (step (engineAt [(0, 0x0F)] 0 0)) (fun t => (t.run, t.pc, t.ic)) =
      some (.halted .hlt, 1, 0) := by decide
/-- CT-3: PC wraps (D1). -/
theorem test_hlt_at_15 :
    seen (step (engineAt [] 0 15)) (fun t => (t.run, t.pc)) = some (.halted .hlt, 0) := by decide
/-- IL-1. -/
theorem test_illegal9 :
    seen (step (engineAt [(0, 0x90)] 0x3C 0)) (fun t => (t.run, t.pc, t.ic, t.ac)) =
      some (.halted .illegalInstruction, 1, 0, 0x3C) := by decide
/-- R153. -/
theorem test_illegal10 :
    seen (step (engineAt [(0, 0xA1)] 0 0)) (fun t => t.run) = some (.halted .illegalInstruction) := by
  decide
/-- R153. -/
theorem test_illegal11 :
    seen (step (engineAt [(0, 0xB2)] 0 0)) (fun t => t.run) = some (.halted .illegalInstruction) := by
  decide
/-- IL-3. -/
theorem test_illegal12 :
    seen (step (engineAt [(4, 0xC8)] 0 4)) (fun t => (t.run, t.pc)) =
      some (.halted .illegalInstruction, 5) := by decide
/-- R153. -/
theorem test_illegal13 :
    seen (step (engineAt [(0, 0xD4)] 0 0)) (fun t => t.run) = some (.halted .illegalInstruction) := by
  decide
/-- R153. -/
theorem test_illegal14 :
    seen (step (engineAt [(0, 0xE5)] 0 0)) (fun t => t.run) = some (.halted .illegalInstruction) := by
  decide
/-- IL-2. -/
theorem test_illegal15 :
    seen (step (engineAt [(15, 0xFF)] 0 15)) (fun t => (t.run, t.pc)) =
      some (.halted .illegalInstruction, 0) := by decide

/-! ## The cycle, the limit and the load (95_test_vectors.md 2.5) -/

/-- The image `12 00 07` of scenario 1. -/
def scenario1 : List Byte := [0x12, 0x00, 0x07] ++ List.replicate 13 0

/-- CY-1: LDA executes, IC reaches MAX_IC, the engine halts at the limit. -/
theorem test_limit_1_halts_after_one_step :
    seen (step (State.loaded scenario1 (some 1))) (fun t => (t.run, t.ac, t.pc, t.ic)) =
      some (.halted .instructionLimit, 0x07, 1, 1) := by decide
/-- CY-1: one record, then the report. -/
theorem test_limit_1_output :
    seen (step (State.loaded scenario1 (some 1))) (fun t => t.output) =
      some [.trace { mem := scenario1, ac := 0, pc := 0 }, .report .instructionLimit] := by decide
/-- CY-2: HLT at the step that would reach the limit halts with HLT. -/
theorem test_hlt_wins_over_the_limit :
    seen (step { engineAt [] 7 1 with ic := 1, maxIC := some 2 }) (fun t => (t.run, t.ic, t.pc)) =
      some (.halted .hlt, 1, 2) := by decide
/-- CY-3. -/
theorem test_illegal_wins_over_the_limit :
    seen (step { engineAt [(0, 0x90)] 0 0 with maxIC := some 1 }) (fun t => (t.run, t.ic)) =
      some (.halted .illegalInstruction, 0) := by decide
/-- CY-4 and CY-5. -/
theorem test_ill_formed_loads_change_nothing :
    (engineAt [(0, 0x90)] 7 3).offerLoad (List.replicate 15 0) none = engineAt [(0, 0x90)] 7 3 ∧
    (engineAt [(0, 0x90)] 7 3).offerLoad scenario1 (some 0) = engineAt [(0, 0x90)] 7 3 := by decide
/-- CY-6. -/
theorem test_load_places_the_image :
    ((engineAt [(9, 0x90)] 7 3).offerLoad scenario1 none).mem = [(0, 0x12), (2, 0x07)] := by decide
/-- CY-7. -/
theorem test_halted_engine_emits_nothing :
    seen (step { engineAt [] 0 1 with run := .halted .hlt }) (fun t => t.output) = some [] := by
  decide
/-- LS-13: the record shows the cell before the store. -/
theorem test_record_is_taken_before_the_store :
    seen (step (engineAt [(4, 0x34)] 0x70 4)) (fun t => (t.readByte 4, t.traces.map fun r => r.mem[4]?)) =
      some (0x70, [some 0x34]) := by decide
/-- R103: withFetchWord's instruction is the one the next step runs (LDA 2 over a cell holding 7). -/
theorem test_withFetchWord_runs_next :
    seen (step ((engineAt [(2, 0x07)] 0 0).withFetchWord 8 0x12)) (fun t => t.ac) = some 7 := by decide

/-! ## Witnesses: the hypotheses of each statement can be met, clause by clause -/

theorem test_witness_LdiLoadsThroughThePointer : ∃ p : Addr,
    p.toNat = ((engineAt [(8, 0x39)] 0 0).readByte 8).toNat % 16 := ⟨9, by decide⟩
theorem test_witness_StiStoresThroughThePointer :
    (engineAt [(11, 0xFE)] 0 0).indirectAddress 11 = 14 ∧
    (engineAt [(11, 0xFE)] 0 0).indirectAddress 11 ≠ 11 := by decide
theorem test_witness_JmpSetsThePc : (engineAt [(3, 0x7F)] 0 3).run = .running ∧
    decode ((engineAt [(3, 0x7F)] 0 3).readByte (engineAt [(3, 0x7F)] 0 3).pc) = .jmp 15 := by decide
theorem test_witness_JmzJumpsOnlyWhenAcIsZero :
    (engineAt [] 0 0).ac.toNat = 0 ∧ (engineAt [] 1 0).ac.toNat ≠ 0 ∧
    (engineAt [] 0x80 0).ac.toNat ≠ 0 ∧ (engineAt [] 255 0).ac.toNat ≠ 0 := by decide
theorem test_witness_IllegalOpcodesHalt :
    Instr.illegal9 0 ∈ [Instr.illegal9 0, .illegal10 0, .illegal11 0, .illegal12 0, .illegal13 0,
      .illegal14 0, .illegal15 0] ∧
    Instr.illegal15 15 ∈ [Instr.illegal9 15, .illegal10 15, .illegal11 15, .illegal12 15,
      .illegal13 15, .illegal14 15, .illegal15 15] := by decide
theorem test_witness_StepRunsTheDecodedInstruction : (engineAt [(15, 0x8F)] 0 15).run = .running ∧
    (Instr.jmz 15).wellFormed = true ∧
    decode ((engineAt [(15, 0x8F)] 0 15).readByte (engineAt [(15, 0x8F)] 0 15).pc) = .jmz 15 := by
  decide
theorem test_witness_LoadStepsFromTheirBytes :
    (engineAt [(0, 0x10)] 0 0).run = .running ∧
    (engineAt [(0, 0x10)] 0 0).atPc 1 0 ∧ (engineAt [(15, 0x1F)] 0 15).atPc 1 15 ∧
    (engineAt [(0, 0x20)] 0 0).atPc 2 0 ∧ (engineAt [(15, 0x2F)] 0 15).atPc 2 15 := by
  unfold State.atPc; decide
theorem test_witness_StoreStepsFromTheirBytes :
    (engineAt [(0, 0x30)] 0 0).run = .running ∧
    (engineAt [(0, 0x30)] 0 0).atPc 3 0 ∧ (engineAt [(15, 0x3F)] 0 15).atPc 3 15 ∧
    (engineAt [(0, 0x40)] 0 0).atPc 4 0 ∧ (engineAt [(15, 0x4F)] 0 15).atPc 4 15 := by
  unfold State.atPc; decide
theorem test_witness_ArithmeticStepsFromTheirBytes :
    (engineAt [(0, 0x50)] 0 0).run = .running ∧
    (engineAt [(0, 0x50)] 0 0).atPc 5 0 ∧ (engineAt [(15, 0x5F)] 0 15).atPc 5 15 ∧
    (engineAt [(0, 0x60)] 0 0).atPc 6 0 ∧ (engineAt [(15, 0x6F)] 0 15).atPc 6 15 := by
  unfold State.atPc; decide
theorem test_witness_JumpStepsFromTheirBytes :
    (engineAt [(0, 0x70)] 0 0).run = .running ∧
    (engineAt [(0, 0x70)] 0 0).atPc 7 0 ∧ (engineAt [(15, 0x7F)] 0 15).atPc 7 15 ∧
    (engineAt [(0, 0x80)] 0 0).atPc 8 0 ∧ (engineAt [(0, 0x80)] 0 0).ac = 0 ∧
    (engineAt [(15, 0x8F)] 1 15).atPc 8 15 ∧ (engineAt [(15, 0x8F)] 1 15).ac ≠ 0 := by
  unfold State.atPc; decide
theorem test_witness_HaltingStepsFromTheirBytes :
    (engineAt [] 0 0).run = .running ∧
    (engineAt [] 0 0).atPc 0 0 ∧ (engineAt [(15, 0x0F)] 0 15).atPc 0 15 ∧
    (engineAt [(0, 0x90)] 0 0).atPc 9 0 ∧ (engineAt [(15, 0xFF)] 0 15).atPc 15 15 := by
  unfold State.atPc; decide
theorem test_witness_TraceRecordPrecedesEveryStep : (engineAt [] 0 0).run = .running ∧
    ∃ s t : State, s.run = .halted .hlt ∧ step s = .next t :=
  ⟨rfl, { engineAt [] 0 1 with run := .halted .hlt }, _, rfl, rfl⟩
theorem test_witness_EveryRunningStepHaltsOrCounts : (engineAt [] 0 0).run = .running ∧
    ((engineAt [(0, 0x0F)] 0 0).readByte 0).toNat / 16 = 0 ∧
    ((engineAt [(0, 0x10)] 0 0).readByte 0).toNat / 16 = 1 ∧
    ((engineAt [(0, 0x8F)] 0 0).readByte 0).toNat / 16 = 8 ∧
    ((engineAt [(0, 0x90)] 0 0).readByte 0).toNat / 16 = 9 ∧
    ((engineAt [(0, 0xFF)] 0 0).readByte 0).toNat / 16 = 15 := by decide
theorem test_witness_CellsChangeOnlyByStoreOrLoad :
    (∃ t, step (engineAt [(0, 0x3F)] 0x2A 0) = .next t ∧
      t.readByte 15 ≠ (engineAt [(0, 0x3F)] 0x2A 0).readByte 15) ∧
    (∃ t, step (engineAt [(0, 0x40)] 0x2A 0) = .next t ∧
      t.readByte 0 ≠ (engineAt [(0, 0x40)] 0x2A 0).readByte 0) :=
  ⟨⟨_, rfl, by decide⟩, ⟨_, rfl, by decide⟩⟩
theorem test_witness_AcChangesOnlyByItsFourWriters :
    ∃ t, step (engineAt [(3, 0x13)] 0 3) = .next t ∧ t.ac ≠ (engineAt [(3, 0x13)] 0 3).ac :=
  ⟨_, rfl, by decide⟩
theorem test_witness_PcAfterEveryStep :
    (∃ t, step (engineAt [(0, 0x7F)] 0 0) = .next t ∧
      decode ((engineAt [(0, 0x7F)] 0 0).readByte 0) = .jmp 15) ∧
    (∃ t, step (engineAt [(0, 0x8F)] 0 0) = .next t ∧
      decode ((engineAt [(0, 0x8F)] 0 0).readByte 0) = .jmz 15 ∧ (engineAt [(0, 0x8F)] 0 0).ac = 0) ∧
    (∃ t, step (engineAt [(15, 0x83)] 0x05 15) = .next t ∧
      (∀ a, decode ((engineAt [(15, 0x83)] 0x05 15).readByte 15) ≠ .jmp a) ∧
      (∀ a, decode ((engineAt [(15, 0x83)] 0x05 15).readByte 15) = .jmz a →
        (engineAt [(15, 0x83)] 0x05 15).ac ≠ 0)) :=
  ⟨⟨_, rfl, by decide⟩, ⟨_, rfl, by decide⟩, ⟨_, rfl, by decide⟩⟩
theorem test_witness_OutputNeverSteersTheEngine :
    ∃ t, step (engineAt [(0, 0x3F)] 0x2A 0) = .next t := ⟨_, rfl⟩
theorem test_witness_IcIsReadOnlyByTheLimitCheck :
    (engineAt [(0, 0x3F)] 0x2A 0).maxIC = none ∧ ∃ t, step (engineAt [(0, 0x3F)] 0x2A 0) = .next t :=
  ⟨rfl, _, rfl⟩
/-- LS-8's store into the next cell, by STA and, through the pointer at 8, by STI. -/
theorem test_witness_StoredByteIsExecutedByTheNextStep :
    (∃ t, step (engineAt [(0, 0x31), (1, 0x5F)] 0 0) = .next t ∧ t.run = .running ∧
      decode ((engineAt [(0, 0x31), (1, 0x5F)] 0 0).readByte 0) = .sta (nextPc 0)) ∧
    (∃ t, step (engineAt [(0, 0x48), (8, 0x01)] 0 0) = .next t ∧ t.run = .running ∧
      decode ((engineAt [(0, 0x48), (8, 0x01)] 0 0).readByte 0) = .sti 8 ∧
      (engineAt [(0, 0x48), (8, 0x01)] 0 0).indirectAddress 8 = nextPc 0) :=
  ⟨⟨_, rfl, rfl, by decide⟩, ⟨_, rfl, rfl, by decide⟩⟩
theorem test_witness_HaltedEngineIsFrozen :
    ({ engineAt [] 0 1 with run := .halted .hlt } : State).run = .halted .hlt := rfl
theorem test_witness_IllegalHaltNamesItsByte :
    ∃ t, step (engineAt [(15, 0x90)] 0 15) = .next t ∧ t.run = .halted .illegalInstruction :=
  ⟨_, rfl, rfl⟩
/-- CT-5. -/
theorem test_witness_JmpToItselfRunsForever : (engineAt [(0, 0x70)] 0 0).run = .running ∧
    (engineAt [(0, 0x70)] 0 0).maxIC = none ∧
    decode ((engineAt [(0, 0x70)] 0 0).readByte 0) = .jmp (engineAt [(0, 0x70)] 0 0).pc := by decide
theorem test_witness_LoadSetsEveryField : scenario1.length = 16 ∧
    (none : Option Nat) ≠ some 0 ∧ some 1 ≠ some 0 := by decide
theorem test_witness_IllFormedLoadsAreRefused :
    (List.replicate 15 (0 : Byte)).length ≠ 16 ∧ (List.replicate 17 (0 : Byte)).length ≠ 16 ∧
    ([] : List Byte).length ≠ 16 ∧ scenario1.length = 16 := by decide
theorem test_witness_CanonicalMemoriesAreEqualWhenTheyReadEqual :
    Memory.wf [(0, 0x12), (15, 0x07)] = true ∧
    (Memory.store [(15, 0x07)] 0 0x12).wf = true ∧
    ∀ a : Addr, Memory.read [(0, 0x12), (15, 0x07)] a.toNat =
      ((Memory.store [(15, 0x07)] 0 0x12).read a.toNat) := by decide
theorem test_witness_EveryStepKeepsMemoryCanonical :
    (engineAt [(0, 0x3F)] 0x2A 0).mem.wf = true ∧ ∃ t, step (engineAt [(0, 0x3F)] 0x2A 0) = .next t :=
  ⟨by decide, _, rfl⟩
theorem test_witness_EveryLoadIsSafe : ∃ t, load scenario1 (some 1) State.reset = .next t :=
  ⟨_, rfl⟩
theorem test_witness_EveryStepKeepsSafety : ∃ t,
    SafeState (engineAt [(0, 0x3F)] 0x2A 0) ∧ step (engineAt [(0, 0x3F)] 0x2A 0) = .next t :=
  ⟨_, ⟨by decide, by decide, (by intro n h; cases h), ⟨[], rfl, rfl⟩, (by intro r h; cases h), trivial⟩,
    rfl⟩
/-- The four endings: Running, HLT (S1), an illegal opcode (CY-3), the limit (CY-1). -/
theorem test_witness_RunsEmitTheirRecordsAndOneReport :
    (∃ s t, load scenario1 none State.reset = .next s ∧ runSteps 1 s = .next t ∧ t.run = .running) ∧
    (∃ s t, load scenario1 none State.reset = .next s ∧ runSteps 2 s = .next t ∧
      t.run = .halted .hlt) ∧
    (∃ s t, load (List.replicate 16 0x90) none State.reset = .next s ∧ runSteps 1 s = .next t ∧
      t.run = .halted .illegalInstruction) ∧
    (∃ s t, load scenario1 (some 1) State.reset = .next s ∧ runSteps 1 s = .next t ∧
      t.run = .halted .instructionLimit) :=
  ⟨⟨_, _, rfl, rfl, rfl⟩, ⟨_, _, rfl, rfl, rfl⟩, ⟨_, _, rfl, rfl, rfl⟩, ⟨_, _, rfl, rfl, rfl⟩⟩
theorem test_witness_LimitBoundsEveryRun : ∃ s, load scenario1 (some 1) State.reset = .next s :=
  ⟨_, rfl⟩
theorem test_witness_StepIsThePseudocode : (engineAt [(0, 0x3F)] 0x2A 0).run = .running := rfl

end Sys2Proof.Machine
end

section
/-! # The engine's state: proofs for spec/10_state.md

Settles O24, O26, O36 and O38. Three layers: what canonical memories hold, what one step does, and how
an operation of the step treats the output. -/

namespace Sys2Proof.Machine

/-! ## Canonical memories (R29) -/

/-- A cell that is listed reads as it is listed, as no address is listed twice. -/
theorem Memory.read_eq_of_mem {m : Memory} {a : Nat} {v : Byte}
    (hm : m.Pairwise fun c d => c.1 < d.1) (h : (a, v) ∈ m) : m.read a = v := by
  induction m with
  | nil => simp at h
  | cons cell rest ih =>
    obtain ⟨hfirst, hrest⟩ := List.pairwise_cons.mp hm
    rcases List.mem_cons.mp h with rfl | h
    · simp [Memory.read]
    · have hne : cell.1 ≠ a := (hfirst _ h).ne
      simpa [Memory.read, hne] using ih hrest h

/-- A cell that reads as no unlisted cell does is listed, with what it reads. -/
theorem Memory.mem_of_read_ne {m : Memory} {a : Nat} (h : m.read a ≠ Memory.unlisted) :
    (a, m.read a) ∈ m := by
  induction m with
  | nil => exact absurd rfl h
  | cons cell rest ih =>
    obtain ⟨k, b⟩ := cell
    by_cases hk : k = a
    · simp [Memory.read, hk]
    · simp only [Memory.read, hk, if_false] at h ⊢
      exact List.mem_cons_of_mem _ (ih h)

/-- A canonical memory lists exactly the cells, inside the 16, that read as no unlisted cell does. -/
theorem Memory.mem_iff_read {m : Memory} (hm : m.wf = true) {a : Nat} {v : Byte} :
    (a, v) ∈ m ↔ a < 16 ∧ v ≠ Memory.unlisted ∧ m.read a = v := by
  obtain ⟨hrising, hcells⟩ := (Memory.wf_iff m).mp hm
  constructor
  · intro h
    obtain ⟨ha, hv⟩ := hcells _ h
    exact ⟨ha, hv, Memory.read_eq_of_mem hrising h⟩
  · rintro ⟨-, hv, rfl⟩
    exact Memory.mem_of_read_ne hv

/-- Settles O36: both lists rise strictly in the address and list the same cells. -/
theorem canonicalMemoriesAreEqualWhenTheyReadEqual :
    Obligations.CanonicalMemoriesAreEqualWhenTheyReadEqual := by
  unfold Obligations.CanonicalMemoriesAreEqualWhenTheyReadEqual
  intro m m' hm hm' hread
  have hreadNat : ∀ a < 16, m.read a = m'.read a := fun a ha => hread (BitVec.ofNatLT a ha)
  have hcells : ∀ cell, cell ∈ m ↔ cell ∈ m' := by
    rintro ⟨a, v⟩
    rw [Memory.mem_iff_read hm, Memory.mem_iff_read hm']
    exact and_congr_right fun ha => by rw [hreadNat a ha]
  have : Std.Asymm fun c d : Host.Cell => c.1 < d.1 := ⟨fun _ _ => Nat.lt_asymm⟩
  exact ((Memory.wf_iff m).mp hm).1.eq_of_mem_iff ((Memory.wf_iff m').mp hm').1 hcells

/-! ## Reset (R38) -/

/-- Settles O38. -/
theorem resetIsSafe : Obligations.ResetIsSafe where
  memoryCanonical := Memory.reset_wf
  limitPositive := nofun
  countWithinLimit := nofun
  outputFollowsProtocol := ⟨[], rfl, rfl⟩
  recordsWhole := nofun
  haltByteBeforePc := trivial

/-! ## One step -/

/-- A Halted engine's step answers the same state. -/
theorem step_halted {s : State} {c : HaltCause} (h : s.run = .halted c) : step s = .next s := by
  simp [step, stepHalted, h]

/-- A Running engine's step emits, fetches, increments PC, executes and counts
(40_execution_cycle.md R110). -/
theorem step_running {s : State} (h : s.run = .running) :
    step s = finishStep (exec (decode (s.readByte s.pc)) s.emitTrace.advancePc) := by
  simp [step, h, State.fetchedByte]

/-- All that a step can be: nothing in a Halted engine, and in a Running one the effect of the
instruction at PC, then the count. -/
theorem step_cases {s t : State} (h : step s = .next t) :
    (∃ c, s.run = .halted c ∧ t = s) ∨
    (s.run = .running ∧ ∃ u, exec (decode (s.readByte s.pc)) s.emitTrace.advancePc = .next u ∧
      u.countStep = t) := by
  rcases s.run_cases with hr | ⟨c, hc⟩
  · rw [step_running hr] at h
    exact .inr ⟨hr, finishStep_eq_next.mp h⟩
  · rw [step_halted hc] at h
    exact .inl ⟨c, hc, (Host.Outcome.next.inj h).symm⟩

/-! ## Who writes AC (R22) -/

/-- The effect of an instruction that is none of the four writers leaves AC as it is. -/
theorem exec_ac (i : Instr) :
    (∃ a, i ∈ [Instr.lda a, .ldi a, .add a, .sub a]) ∨
    ∀ s u : State, exec i s = .next u → u.ac = s.ac := by
  cases i with
  | lda a | ldi a | add a | sub a => exact .inl ⟨a, by simp⟩
  | jmz a =>
    refine .inr fun s u h => ?_
    rw [← Host.Outcome.next.inj h]
    split <;> rfl
  | sta | sti | jmp | hlt | illegal9 | illegal10 | illegal11 | illegal12 | illegal13 | illegal14
  | illegal15 =>
    refine .inr fun s u h => ?_
    rw [← Host.Outcome.next.inj h]
    rfl

/-- Settles O24: neither a Halted engine, nor the parts of the step around the effect, write AC. -/
theorem acChangesOnlyByItsFourWriters : Obligations.AcChangesOnlyByItsFourWriters := by
  unfold Obligations.AcChangesOnlyByItsFourWriters
  intro s t h hac
  rcases step_cases h with ⟨_, _, rfl⟩ | ⟨hr, u, hu, rfl⟩
  · exact absurd rfl hac
  · rcases exec_ac (decode (s.readByte s.pc)) with hwriter | hkeeps
    · exact ⟨hr, hwriter⟩
    · have hcount : u.countStep.ac = u.ac := u.countStep_frame.2.1
      exact absurd (hcount.trans (hkeeps _ u hu)) hac

/-! ## The output is written and never read (R30, R182) -/

/-- The same engine with another output so far. -/
def State.withOutput (s : State) (earlier : List OutputItem) : State := { s with output := earlier }

/-- What `f` does to the engine and the items it appends do not depend on the output so far. -/
def AppendsOutput (f : State → State) : Prop :=
  ∀ s, ∃ emitted, ∀ earlier, f (s.withOutput earlier) = (f s).withOutput (earlier ++ emitted)

namespace AppendsOutput

/-- What `f` appends comes before what `g` appends. -/
theorem comp {f g : State → State} (hg : AppendsOutput g) (hf : AppendsOutput f) :
    AppendsOutput fun s => g (f s) := by
  intro s
  obtain ⟨first, hfirst⟩ := hf s
  obtain ⟨second, hsecond⟩ := hg (f s)
  refine ⟨first ++ second, fun earlier => ?_⟩
  calc g (f (s.withOutput earlier))
      = g ((f s).withOutput (earlier ++ first)) := by rw [hfirst]
    _ = (g (f s)).withOutput (earlier ++ first ++ second) := hsecond _
    _ = (g (f s)).withOutput (earlier ++ (first ++ second)) := by rw [List.append_assoc]

/-- An operation that does not look at the output and keeps it appends nothing. -/
theorem of_silent {f : State → State}
    (h : ∀ s earlier, f (s.withOutput earlier) = (f s).withOutput earlier) : AppendsOutput f :=
  fun s => ⟨[], fun earlier => by rw [h, List.append_nil]⟩

theorem halt (c : HaltCause) : AppendsOutput fun s => s.halt c :=
  fun _ => ⟨[.report c], fun _ => rfl⟩

theorem emitTrace : AppendsOutput State.emitTrace :=
  fun s => ⟨[.trace s.record], fun _ => rfl⟩

theorem advancePc : AppendsOutput State.advancePc :=
  of_silent fun _ _ => rfl

/-- The limit check looks at MAX_IC and IC alone. -/
theorem checkLimit : AppendsOutput State.checkLimit := by
  intro s
  by_cases h : s.maxIC = some s.ic
  · refine ⟨[.report .instructionLimit], fun earlier => ?_⟩
    have h' : (s.withOutput earlier).maxIC = some (s.withOutput earlier).ic := h
    rw [State.checkLimit_reached h, State.checkLimit_reached h']
    rfl
  · refine ⟨[], fun earlier => ?_⟩
    have h' : (s.withOutput earlier).maxIC ≠ some (s.withOutput earlier).ic := h
    rw [State.checkLimit_open h, State.checkLimit_open h', List.append_nil]

/-- The count looks at the run state, then counts and checks the limit. -/
theorem countStep : AppendsOutput State.countStep := by
  intro s
  cases h : s.run with
  | running =>
    have hcount : ∀ u : State, u.run = .running → u.countStep = (u.writeIc (u.ic + 1)).checkLimit :=
      fun u hu => by simp [State.countStep, hu]
    obtain ⟨emitted, hemitted⟩ := checkLimit (s.writeIc (s.ic + 1))
    refine ⟨emitted, fun earlier => ?_⟩
    rw [hcount s h, hcount (s.withOutput earlier) h]
    exact hemitted earlier
  | halted c =>
    refine ⟨[], fun earlier => ?_⟩
    have h' : (s.withOutput earlier).run = .halted c := h
    rw [State.countStep_halted h, State.countStep_halted h', List.append_nil]

/-- The effect of every instruction: a halt appends its report, the others nothing. -/
theorem exec (i : Instr) :
    ∃ f, (∀ s, Machine.exec i s = .next (f s)) ∧ AppendsOutput f := by
  cases i with
  | hlt => exact ⟨_, fun _ => rfl, halt .hlt⟩
  | lda | ldi | sta | sti | add | sub | jmp => exact ⟨_, fun _ => rfl, of_silent fun _ _ => rfl⟩
  | jmz a =>
    refine ⟨_, fun _ => rfl, of_silent fun s earlier => ?_⟩
    have htest : (s.withOutput earlier).acIsZero = s.acIsZero := rfl
    rw [htest]
    split <;> rfl
  | illegal9 | illegal10 | illegal11 | illegal12 | illegal13 | illegal14 | illegal15 =>
    exact ⟨_, fun _ => rfl, halt .illegalInstruction⟩

end AppendsOutput

/-- Settles O26: a step is the composition of operations that each append without reading, and the
instruction it runs is chosen by memory and PC. -/
theorem outputNeverSteersTheEngine : Obligations.OutputNeverSteersTheEngine := by
  unfold Obligations.OutputNeverSteersTheEngine
  intro s t earlier h
  rcases s.run_cases with hr | ⟨c, hc⟩
  · obtain ⟨f, hexec, hf⟩ := AppendsOutput.exec (decode (s.readByte s.pc))
    have hstep : ∀ u : State, u.run = .running → u.readByte u.pc = s.readByte s.pc →
        step u = .next (f u.emitTrace.advancePc).countStep := fun u hu hbyte => by
      rw [step_running hu, hbyte, hexec]
      rfl
    obtain ⟨emitted, hemitted⟩ :=
      (AppendsOutput.countStep.comp (hf.comp (.comp .advancePc .emitTrace))) s
    obtain rfl := Host.Outcome.next.inj ((hstep s hr rfl).symm.trans h)
    have hown : (f s.emitTrace.advancePc).countStep.output = s.output ++ emitted :=
      congrArg State.output (hemitted s.output)
    exact ⟨emitted, hown,
      (hstep (s.withOutput earlier) hr rfl).trans (congrArg _ (hemitted earlier))⟩
  · obtain rfl := Host.Outcome.next.inj ((step_halted hc).symm.trans h)
    refine ⟨[], (List.append_nil _).symm, ?_⟩
    rw [List.append_nil]
    exact step_halted (s := s.withOutput earlier) hc

end Sys2Proof.Machine
end

section
/-! # Memory: proofs for spec/20_memory.md

Settles O23 and O28. One notion carries both: the cell an instruction stores to. Its effect is the write
of AC to that cell, and an instruction without one leaves memory as it is. -/

namespace Sys2Proof.Machine

/-! ## What an effect does to memory (R56, R65) -/

/-- The instruction `i`, run in `s`, stores to the cell `a`: it is an STA of that cell, or an STI whose
pointer names it. -/
def StoresTo (s : State) (i : Instr) (a : Addr) : Prop :=
  i = .sta a ∨ ∃ p, i = .sti p ∧ s.indirectAddress p = a

/-- Emitting the record and fetching change no pointer. -/
theorem storesTo_fetched {s : State} {i : Instr} {a : Addr} :
    StoresTo s.emitTrace.advancePc i a ↔ StoresTo s i a := .rfl

/-- The effect of a store is the write of AC to its cell, and nothing else. -/
theorem exec_of_storesTo {s : State} {i : Instr} {a : Addr} (h : StoresTo s i a) :
    exec i s = .next (s.writeByte a s.ac) := by
  rcases h with rfl | ⟨p, rfl, rfl⟩ <;> rfl

/-- The effect of an instruction that is no store leaves memory as it is. -/
theorem exec_mem {s u : State} {i : Instr} (h : exec i s = .next u) :
    (∃ a, StoresTo s i a) ∨ u.mem = s.mem := by
  cases i with
  | sta a => exact .inl ⟨a, .inl rfl⟩
  | sti p => exact .inl ⟨s.indirectAddress p, .inr ⟨p, rfl, rfl⟩⟩
  | jmz a =>
    rw [← Host.Outcome.next.inj h]
    split <;> exact .inr rfl
  | lda | ldi | add | sub | jmp | hlt | illegal9 | illegal10 | illegal11 | illegal12 | illegal13
  | illegal14 | illegal15 =>
    rw [← Host.Outcome.next.inj h]
    exact .inr rfl

/-! ## What a step and a load do to memory -/

/-- States with the same memory read the same at every address. -/
theorem State.readByte_congr {s t : State} (h : t.mem = s.mem) (a : Addr) :
    t.readByte a = s.readByte a := by
  rw [State.readByte, State.readByte, h]

/-- The count changes no cell. -/
@[simp] theorem State.countStep_readByte (s : State) (a : Addr) :
    s.countStep.readByte a = s.readByte a :=
  State.readByte_congr s.countStep_frame.1 a

/-- A Running step whose instruction stores to `a` writes AC there and counts. -/
theorem step_of_storesTo {s : State} {a : Addr} (hr : s.run = .running)
    (h : StoresTo s (decode (s.readByte s.pc)) a) :
    step s = .next (s.emitTrace.advancePc.writeByte a s.ac).countStep := by
  rw [step_running hr, exec_of_storesTo (storesTo_fetched.mpr h)]
  rfl

/-- A step either runs a store or changes no cell. -/
theorem step_readByte {s t : State} (h : step s = .next t) :
    (s.run = .running ∧ ∃ a, StoresTo s (decode (s.readByte s.pc)) a) ∨ SameMemory s t := by
  rcases step_cases h with ⟨_, _, rfl⟩ | ⟨hr, u, hu, rfl⟩
  · exact .inr fun _ => rfl
  · rcases exec_mem hu with hstore | hmem
    · exact .inl ⟨hr, hstore⟩
    · exact .inr fun b => (u.countStep_readByte b).trans (State.readByte_congr hmem b)

/-- A load offered to the engine is refused and changes nothing, or is accepted and sets every field. -/
theorem State.offerLoad_cases (s : State) (image : List Byte) (limit : Option Nat) :
    s.offerLoad image limit = s ∨
    (image.length = 16 ∧ s.offerLoad image limit = State.loaded image limit) := by
  rcases load_cases image limit s with ⟨_, e⟩ | ⟨_, _, e⟩ | ⟨hlength, _, e⟩
  · exact .inl (by rw [State.offerLoad, e])
  · exact .inl (by rw [State.offerLoad, e])
  · exact .inr ⟨hlength, by rw [State.offerLoad, e]⟩

/-- After an accepted load each cell reads as its byte of the image. -/
theorem State.loaded_readByte {image : List Byte} (h : image.length = 16) (limit : Option Nat)
    (a : Addr) : image[a.toNat]? = some ((State.loaded image limit).readByte a) := by
  have ha : a.toNat < image.length := h ▸ a.isLt
  rw [List.getElem?_eq_getElem ha, State.readByte, State.loaded_mem, Memory.read_ofImage ha]

/-! ## The obligations -/

/-- Settles O23: the cell that reads differently is the one the step's store wrote. -/
theorem cellsChangeOnlyByStoreOrLoad : Obligations.CellsChangeOnlyByStoreOrLoad := by
  unfold Obligations.CellsChangeOnlyByStoreOrLoad
  refine ⟨fun s t a h hne => ?_, fun s c b => s.halt_readByte b c, fun s image limit => ?_⟩
  · rcases step_readByte h with ⟨hr, w, hstore⟩ | hsame
    · obtain rfl := Host.Outcome.next.inj ((step_of_storesTo hr hstore).symm.trans h)
      have haw : a = w := by
        by_contra hother
        exact hne (by simp [State.readByte_writeByte_other _ _ hother])
      exact ⟨hr, haw ▸ hstore⟩
    · exact absurd (hsame a) hne
  · rcases s.offerLoad_cases image limit with e | ⟨hlength, e⟩
    · exact .inr fun b => by rw [e]
    · exact .inl fun a => by rw [e]; exact State.loaded_readByte hlength limit a

/-- Settles O28: the store has written AC to the cell that PC names after the step, so the next step
fetches and decodes it. -/
theorem storedByteIsExecutedByTheNextStep : Obligations.StoredByteIsExecutedByTheNextStep := by
  unfold Obligations.StoredByteIsExecutedByTheNextStep
  intro s t hr h htr hstore
  have ht : (s.emitTrace.advancePc.writeByte (nextPc s.pc) s.ac).countStep = t :=
    Host.Outcome.next.inj ((step_of_storesTo hr hstore).symm.trans h)
  have hpc : t.pc = nextPc s.pc := by
    obtain ⟨_, _, hcount, _⟩ :=
      (s.emitTrace.advancePc.writeByte (nextPc s.pc) s.ac).countStep_frame
    exact ht ▸ hcount
  have hbyte : t.readByte t.pc = s.ac := by
    rw [hpc, ← ht, State.countStep_readByte, State.readByte_writeByte_same]
  refine ⟨hpc, hbyte, ?_⟩
  rw [step_running htr, hbyte]
  rfl

end Sys2Proof.Machine
end

section
/-! # The encoding: proofs for spec/30_encoding.md

Settles O1, O2 and O3. The two fields of a word are the two fields of its instruction, in both
directions; so a byte decodes to an instruction exactly if it is that instruction's word. -/

namespace Sys2Proof

/-! ## The fields of an instruction's word (R70) -/

@[simp] theorem opcodeField_encode (i : Instr) : opcodeField (encode i) = i.opcode :=
  opcodeField_packFields _ _

@[simp] theorem operandField_encode (i : Instr) : operandField (encode i) = i.operand :=
  operandField_packFields _ _

/-- The word as a number: the opcode is its high nibble and the operand its low one. -/
theorem encode_toNat (i : Instr) : (encode i).toNat = i.opcode.toNat * 16 + i.operand.toNat := by
  have hopcode := opcodeField_toNat (encode i)
  have hoperand := operandField_toNat (encode i)
  rw [opcodeField_encode] at hopcode
  rw [operandField_encode] at hoperand
  omega

/-! ## The fields of a decoded byte (R71) -/

/-- The row of the opcode map that a byte selects has the byte's own opcode. In the last row, taken when
no other is, the opcode is the one number below 16 that is left. -/
@[simp] theorem decode_opcode (b : Byte) : (decode b).opcode = opcodeField b := by
  apply BitVec.eq_of_toNat_eq
  unfold decode
  split
  case h_16 =>
    have hlt : (opcodeField b).toNat < 16 := (opcodeField b).isLt
    simp only [imp_false] at *
    change 15 = (opcodeField b).toNat
    omega
  all_goals exact Eq.symm ‹_›

/-- Every row of the opcode map keeps the operand field. -/
@[simp] theorem decode_operand (b : Byte) : (decode b).operand = operandField b := by
  unfold decode
  split <;> rfl

/-! ## Decode and encode undo each other -/

/-- Each opcode selects the row of its own instruction. -/
@[simp] theorem decode_encode (i : Instr) : decode (encode i) = i := by
  rw [decode, opcodeField_encode, operandField_encode]
  cases i <;> rfl

@[simp] theorem encode_decode (b : Byte) : encode (decode b) = b := by
  rw [encode, decode_opcode, decode_operand, packFields_fields]

/-- A byte decodes to an instruction exactly if it is that instruction's word. -/
theorem decode_eq_iff {b : Byte} {i : Instr} : decode b = i ↔ encode i = b :=
  ⟨fun h => h ▸ encode_decode b, fun h => h ▸ decode_encode i⟩

/-- Settles O1. -/
theorem decodeAndEncodeAgree : Obligations.DecodeAndEncodeAgree := by
  unfold Obligations.DecodeAndEncodeAgree
  refine ⟨decode_encode, encode_decode, fun b => ⟨?_, ?_⟩, encode_toNat⟩
  · rw [decode_opcode, opcodeField_toNat]
  · rw [decode_operand, operandField_toNat]

/-! ## The rows of the opcode map (R73 to R75) -/

/-- An instruction of opcode `k` occupies the 16 bytes whose high nibble is `k`: they are the words of
its 16 operands. -/
theorem occupiesBytes_of_opcode {mk : Nibble → Instr} (k : Nibble) (hopcode : ∀ x, (mk x).opcode = k)
    (hoperand : ∀ x, (mk x).operand = x) :
    Machine.OccupiesBytes (16 * k.toNat) (16 * k.toNat + 15) mk := by
  intro b
  constructor
  · rintro ⟨hlo, hhi⟩
    have hfield : opcodeField b = k :=
      BitVec.eq_of_toNat_eq (by rw [opcodeField_toNat]; omega)
    refine ⟨operandField b, decode_eq_iff.mpr ?_, operandField_toNat b⟩
    rw [encode, hopcode, hoperand, ← hfield, packFields_fields]
  · rintro ⟨x, hdecode, -⟩
    have hword : b.toNat = k.toNat * 16 + x.toNat := by
      rw [← decode_eq_iff.mp hdecode, encode_toNat, hopcode, hoperand]
    have hx : x.toNat < 16 := x.isLt
    omega

/-- Settles O2. -/
theorem sampleWordsDecode : Obligations.SampleWordsDecode := by
  unfold Obligations.SampleWordsDecode
  decide

/-- Settles O3: opcode 0 is HLT's alone, and each opcode from 9 to 15 is that of one illegal
instruction. -/
theorem hltAndIllegalOccupyTheirBytes : Obligations.HltAndIllegalOccupyTheirBytes :=
  ⟨occupiesBytes_of_opcode 0 (fun _ => rfl) fun _ => rfl,
    occupiesBytes_of_opcode 9 (fun _ => rfl) fun _ => rfl,
    occupiesBytes_of_opcode 10 (fun _ => rfl) fun _ => rfl,
    occupiesBytes_of_opcode 11 (fun _ => rfl) fun _ => rfl,
    occupiesBytes_of_opcode 12 (fun _ => rfl) fun _ => rfl,
    occupiesBytes_of_opcode 13 (fun _ => rfl) fun _ => rfl,
    occupiesBytes_of_opcode 14 (fun _ => rfl) fun _ => rfl,
    occupiesBytes_of_opcode 15 (fun _ => rfl) fun _ => rfl⟩

end Sys2Proof
end

section
/-! # The execution cycle: proofs for spec/40_execution_cycle.md

Settles O21, O30 and O43. A Running step either halts at its dispatch or counts its instruction, and
that fixes what it emits. For the pseudocode of R110, each operation of the model, read as numbers, is
the pseudocode's assignment. -/

namespace Sys2Proof.Machine

/-! ## A Halted engine (R101) -/

/-- A run of a Halted engine of any length ends where it began. -/
theorem runSteps_halted {s : State} {c : HaltCause} (h : s.run = .halted c) (k : Nat) :
    runSteps k s = .next s := by
  induction k with
  | zero => rfl
  | succ k ih => rw [runSteps_succ k (step_halted h), ih]

/-- The final state of a Halted engine is what it holds in M, AC, PC and IC. -/
theorem State.finalState_halted {s : State} {c : HaltCause} (h : s.run = .halted c) :
    s.finalState = some { mem := s.mem.snapshot, ac := s.ac, pc := s.pc, ic := s.ic } := by
  rw [State.finalState, h]

/-- Settles O30, by induction on the number of steps. -/
theorem haltedEngineIsFrozen : Obligations.HaltedEngineIsFrozen :=
  fun _ _ k h => ⟨runSteps_halted h k, State.finalState_halted h⟩

/-! ## How a Running step ends (R105, R107) -/

/-- The effect of every instruction is a halt, or leaves IC, run, MAX_IC and the output alone. -/
theorem exec_halts_or_keeps_control (i : Instr) (s : State) :
    (∃ c, exec i s = .next (s.halt c)) ∨ ∃ u, exec i s = .next u ∧ SameControl s u := by
  cases i with
  | hlt => exact .inl ⟨.hlt, rfl⟩
  | illegal9 | illegal10 | illegal11 | illegal12 | illegal13 | illegal14 | illegal15 =>
    exact .inl ⟨.illegalInstruction, rfl⟩
  | lda | ldi | sta | sti | add | sub | jmp => exact .inr ⟨_, rfl, rfl, rfl, rfl, rfl⟩
  | jmz =>
    refine .inr ⟨_, rfl, ?_⟩
    split <;> exact ⟨rfl, rfl, rfl, rfl⟩

/-- A Running step halts at its dispatch or counts its instruction. -/
theorem step_halts_or_counts {s : State} (hr : s.run = .running) :
    ∃ t, step s = .next t ∧ ((∃ c, HaltedStep c s t) ∨ CountedStep s t) := by
  rw [step_running hr]
  rcases exec_halts_or_keeps_control (decode (s.readByte s.pc)) s.emitTrace.advancePc with
    ⟨c, he⟩ | ⟨u, he, hic, hrun, hmax, hout⟩
  · refine ⟨s.emitTrace.advancePc.halt c, ?_, .inl ⟨c, rfl, rfl, rfl, by simp⟩⟩
    rw [he, finishStep, State.countStep_halted rfl]
  · refine ⟨u.countStep, by rw [he, finishStep], .inr ?_⟩
    exact State.countStep_countedStep (hrun.trans hr) hic hmax hout

/-! ## What a Running step emits (R102) -/

/-- Whichever way it ends, a Running step emits its trace record and after it only reports. -/
theorem output_of_halts_or_counts {s t : State} (h : (∃ c, HaltedStep c s t) ∨ CountedStep s t) :
    ∃ causes : List HaltCause, t.output = s.output ++ .trace s.record :: causes.map .report := by
  rcases h with ⟨c, -, -, -, hout⟩ | ⟨-, -, hlimit, hopen⟩
  · exact ⟨[c], hout⟩
  · by_cases hl : s.limitNext
    · exact ⟨[.instructionLimit], (hlimit hl).2⟩
    · exact ⟨[], (hopen hl).2⟩

/-- Reports are no trace records. -/
theorem State.traces_of_output {s t : State} {r : TraceRecord} {causes : List HaltCause}
    (h : t.output = s.output ++ .trace r :: causes.map .report) : t.traces = s.traces ++ [r] := by
  simp [State.traces, h, List.filterMap_append]

/-- Settles O21: the record emitted first is the one of the state before the step. -/
theorem traceRecordPrecedesEveryStep : Obligations.TraceRecordPrecedesEveryStep := by
  unfold Obligations.TraceRecordPrecedesEveryStep
  refine ⟨fun s hr => ?_, fun s t c hc h => ?_⟩
  · obtain ⟨t, hstep, hends⟩ := step_halts_or_counts hr
    obtain ⟨causes, hout⟩ := output_of_halts_or_counts hends
    refine ⟨t, s.record, _, hstep, hout, State.traces_of_output hout, s.mem.snapshot_length,
      fun a => ?_, rfl, rfl⟩
    exact List.getElem?_eq_some_iff.mpr ⟨_, s.getElem_snapshot a⟩
  · obtain rfl := Host.Outcome.next.inj ((step_halted hc).symm.trans h)
    rfl

/-! ## The state read as numbers (R110) -/

/-- The pseudocode's `M[a]` is the model's read of that cell. -/
theorem State.view_cell (s : State) (a : Addr) :
    s.view.M.getD a.toNat 0 = (s.readByte a).toNat := by
  have ha : a.toNat < s.mem.snapshot.length := by simpa using a.isLt
  simp [State.view, List.getD, List.getElem?_eq_getElem ha, State.getElem_snapshot]

/-- The pseudocode's `M[a] & 0xF` is the model's indirect address. -/
theorem State.view_indirectAddress (s : State) (a : Addr) :
    s.view.M.getD a.toNat 0 % 16 = (s.indirectAddress a).toNat := by
  rw [State.view_cell, State.indirectAddress_toNat]

/-- The model's write of one byte is the pseudocode's `M[a] <- v`. -/
theorem State.view_writeByte (s : State) (a : Addr) (v : Byte) :
    (s.writeByte a v).view = { s.view with M := s.view.M.set a.toNat v.toNat } := by
  simp [State.view, Memory.snapshot_store, List.map_set]

/-- The model's halt is the pseudocode's. -/
theorem State.view_halt (s : State) (c : HaltCause) : (s.halt c).view = s.view.halt c := by
  simp [State.view, PseudoState.halt, OutputItem.view]

/-- Parts 1 and 2: the record of the state before, then PC past the instruction. -/
theorem State.view_fetched (s : State) :
    s.emitTrace.advancePc.view =
      { s.view with
        out := s.view.out ++ [.inl (s.view.M, s.view.AC, s.view.PC)]
        PC := (s.view.PC + 1) % 16 } := by
  simp [State.view, OutputItem.view, nextPc_toNat]

/-- Part 5 of a Running engine is the pseudocode's count and limit check. -/
theorem State.view_countStep {s : State} {p : PseudoState} (hr : s.run = .running)
    (hp : s.view = p) : s.countStep.view = p.count s.maxIC := by
  have hic : p.IC = s.ic := hp ▸ rfl
  rcases State.countStep_running hr with ⟨hl, e⟩ | ⟨hl, e⟩
  · rw [e, State.view_halt, PseudoState.count, hic, if_pos hl, ← hp]
    rfl
  · rw [e, PseudoState.count, hic, if_neg hl, ← hp]
    rfl

/-- After a halt at the dispatch the pseudocode's step has ended, and the model's part 5 does nothing. -/
theorem State.view_countStep_halt (s : State) (c : HaltCause) :
    (s.halt c).countStep.view = s.view.halt c := by
  rw [State.countStep_halted rfl, State.view_halt]

/-- `AC <- v`. -/
theorem State.view_writeAc {s : State} {v : Byte} {n : Nat} (h : v.toNat = n) :
    (s.writeAc v).view = { s.view with AC := n } := by
  rw [← h]
  rfl

/-- `PC <- a`. -/
theorem State.view_writePc (s : State) (a : Addr) :
    (s.writePc a).view = { s.view with PC := a.toNat } := rfl

theorem aluAdd_toNat (a b : Byte) : (aluAdd a b).toNat = (a.toNat + b.toNat) % 256 := by
  rw [aluAdd_eq, BitVec.toNat_add]

theorem aluSub_toNat (a b : Byte) :
    (aluSub a b).toNat = (((a.toNat : Int) - (b.toNat : Int)) % 256).toNat := by
  have := narrowToByte_toNat ((a.toNat : Int) - (b.toNat : Int))
  rw [aluSub]
  omega

/-! ## The dispatch and the step are the pseudocode's -/

/-- JMZ tests the number that AC holds. -/
theorem State.view_jmz (s : State) (a : Addr) :
    (if s.acIsZero then s.writePc (jumpTarget a) else s).view =
      if s.view.AC = 0 then { s.view with PC := a.toNat } else s.view := by
  have htest : s.view.AC = 0 ↔ s.acIsZero = true := by
    rw [State.acIsZero_iff]
    exact (BitVec.toNat_eq (x := s.ac) (y := 0#8)).symm
  by_cases hz : s.acIsZero = true
  · rw [if_pos hz, if_pos (htest.mpr hz)]
    exact s.view_writePc a
  · rw [if_neg hz, if_neg (htest.not.mpr hz)]

/-- Parts 4 and 5 together: each instruction is its line of R110's `case opcode of`. -/
theorem view_dispatch (i : Instr) {s u : State} (hr : s.run = .running) (h : exec i s = .next u) :
    u.countStep.view = s.view.dispatch s.maxIC i.opcode.toNat i.operand.toNat := by
  cases i <;> obtain rfl := Host.Outcome.next.inj h
  case hlt => exact s.view_countStep_halt .hlt
  case lda a => exact State.view_countStep hr (State.view_writeAc (s.view_cell a).symm)
  case ldi a =>
    refine State.view_countStep hr (State.view_writeAc ?_)
    rw [State.view_indirectAddress, State.view_cell]
    rfl
  case sta a => exact State.view_countStep hr (s.view_writeByte a s.ac)
  case sti a =>
    refine State.view_countStep hr ((s.view_writeByte _ s.ac).trans ?_)
    rw [← State.view_indirectAddress]
    rfl
  case add a =>
    refine State.view_countStep hr (State.view_writeAc ?_)
    rw [aluAdd_toNat, State.view_cell]
    rfl
  case sub a =>
    refine State.view_countStep hr (State.view_writeAc ?_)
    rw [aluSub_toNat, State.view_cell]
    rfl
  case jmp a => exact State.view_countStep hr (s.view_writePc a)
  case jmz a =>
    have hrun : (if s.acIsZero then s.writePc (jumpTarget a) else s).run = .running := by
      split <;> exact hr
    have hmax : (if s.acIsZero then s.writePc (jumpTarget a) else s).maxIC = s.maxIC := by
      split <;> rfl
    rw [State.view_countStep hrun (s.view_jmz a), hmax]
    rfl
  case illegal9 | illegal10 | illegal11 | illegal12 | illegal13 | illegal14 | illegal15 =>
    exact s.view_countStep_halt .illegalInstruction

/-- Settles O43: parts 1 and 2 prepare the state that the dispatch of the fetched byte's fields runs
on. -/
theorem stepIsThePseudocode : Obligations.StepIsThePseudocode := by
  unfold Obligations.StepIsThePseudocode
  intro s hr
  obtain ⟨t, hstep, hends⟩ := step_halts_or_counts hr
  have hmax : t.maxIC = s.maxIC := by
    rcases hends with ⟨_, _, hmax, _⟩ | ⟨_, hmax, _⟩ <;> exact hmax
  rw [step_running hr] at hstep
  obtain ⟨u, hexec, rfl⟩ := finishStep_eq_next.mp hstep
  refine ⟨u.countStep, (step_running hr).trans hstep, ?_, hmax⟩
  have hcell : s.view.M.getD s.view.PC 0 = (s.readByte s.pc).toNat := s.view_cell s.pc
  rw [view_dispatch (s := s.emitTrace.advancePc) _ hr hexec, State.view_fetched, decode_opcode,
    decode_operand, opcodeField_toNat, operandField_toNat, pseudoStep, hcell]
  rfl

end Sys2Proof.Machine
end

section
/-! # Loads and stores: proofs for spec/41_load_store.md

Settles O4 to O7, O16 and O17. A load is the write to AC of one cell's byte, a store the write of AC to
one cell; the direct and the indirect form differ only in which cell. The frame of each write is stated
once, for the effect alone and for the whole step. -/

namespace Sys2Proof.Machine

/-! ## The cell an instruction uses (R120 to R123) -/

/-- The instruction `i`, run in `s`, loads the cell `a`: it is an LDA of that cell, or an LDI whose
pointer names it. The counterpart of `StoresTo`. -/
def LoadsFrom (s : State) (i : Instr) (a : Addr) : Prop :=
  i = .lda a ∨ ∃ p, i = .ldi p ∧ s.indirectAddress p = a

theorem loadsFrom_lda (s : State) (a : Addr) : LoadsFrom s (.lda a) a := .inl rfl

theorem loadsFrom_ldi (s : State) (p : Addr) : LoadsFrom s (.ldi p) (s.indirectAddress p) :=
  .inr ⟨p, rfl, rfl⟩

theorem storesTo_sta (s : State) (a : Addr) : StoresTo s (.sta a) a := .inl rfl

theorem storesTo_sti (s : State) (p : Addr) : StoresTo s (.sti p) (s.indirectAddress p) :=
  .inr ⟨p, rfl, rfl⟩

/-- Emitting the record and fetching change no pointer. -/
theorem loadsFrom_fetched {s : State} {i : Instr} {a : Addr} :
    LoadsFrom s.emitTrace.advancePc i a ↔ LoadsFrom s i a := .rfl

/-- The effect of a load is the write of its cell's byte to AC, and nothing else. -/
theorem exec_of_loadsFrom {s : State} {i : Instr} {a : Addr} (h : LoadsFrom s i a) :
    exec i s = .next (s.writeAc (s.readByte a)) := by
  rcases h with rfl | ⟨p, rfl, rfl⟩ <;> rfl

/-- The address that a pointer byte's low 4 bits spell is the indirect address. -/
theorem State.indirectAddress_eq {s : State} {a p : Addr}
    (h : p.toNat = (s.readByte a).toNat % 16) : s.indirectAddress a = p :=
  BitVec.eq_of_toNat_eq ((s.indirectAddress_toNat a).trans h.symm)

/-! ## Frames of the two writes -/

/-- A write of AC changes nothing else. -/
theorem State.writeAc_frame (s : State) (v : Byte) :
    SameMemory s (s.writeAc v) ∧ (s.writeAc v).pc = s.pc ∧ SameControl s (s.writeAc v) :=
  ⟨fun b => s.writeAc_readByte b v, rfl, rfl, rfl, rfl, rfl⟩

/-- A write of one cell changes nothing else. -/
theorem State.writeByte_frame (s : State) (a : Addr) (v : Byte) :
    SameMemoryBut a s (s.writeByte a v) ∧ (s.writeByte a v).ac = s.ac ∧
      (s.writeByte a v).pc = s.pc ∧ SameControl s (s.writeByte a v) :=
  ⟨fun _ hb => State.readByte_writeByte_other s v hb, rfl, rfl, rfl, rfl, rfl, rfl⟩

/-! ## The whole step around an effect (R103, R107) -/

/-- The byte at PC decodes to the instruction whose opcode and operand it spells. -/
theorem State.decode_of_atPc {s : State} {i : Instr} (h : s.atPc i.opcode.toNat i.operand) :
    decode (s.readByte s.pc) = i := by
  refine decode_eq_iff.mpr (BitVec.eq_of_toNat_eq ?_)
  rw [encode_toNat, h, Nat.mul_comm]

@[simp] theorem State.countStep_ac (s : State) : s.countStep.ac = s.ac := by
  obtain ⟨_, hac, _, _⟩ := s.countStep_frame
  exact hac

@[simp] theorem State.countStep_pc (s : State) : s.countStep.pc = s.pc := by
  obtain ⟨_, _, hpc, _⟩ := s.countStep_frame
  exact hpc

/-- The count leaves PC where the fetch put it, if the effect does. -/
theorem pcPastInstruction_countStep {s u : State} (h : u.pc = nextPc s.pc) :
    PcPastInstruction s u.countStep := by
  rw [PcPastInstruction, State.countStep_pc, h, nextPc_toNat]

/-- A Running step whose effect leaves IC, run, MAX_IC and the output alone counts its instruction. -/
theorem step_of_sameControl {s u : State} (hr : s.run = .running)
    (he : exec (decode (s.readByte s.pc)) s.emitTrace.advancePc = .next u)
    (hu : SameControl s.emitTrace.advancePc u) :
    step s = .next u.countStep ∧ CountedStep s u.countStep := by
  obtain ⟨hic, hrun, hmax, hout⟩ := hu
  refine ⟨?_, State.countStep_countedStep (hrun.trans hr) hic hmax hout⟩
  rw [step_running hr, he, finishStep]

/-- The whole step of an instruction whose effect is the write of `v` to AC. -/
theorem step_of_writeAc {s : State} {v : Byte} (hr : s.run = .running)
    (he : exec (decode (s.readByte s.pc)) s.emitTrace.advancePc =
      .next (s.emitTrace.advancePc.writeAc v)) :
    ∃ t, step s = .next t ∧ t.ac = v ∧ SameMemory s t ∧ PcPastInstruction s t ∧
      CountedStep s t := by
  obtain ⟨hmem, hpc, hcontrol⟩ := s.emitTrace.advancePc.writeAc_frame v
  obtain ⟨hstep, hcounted⟩ := step_of_sameControl hr he hcontrol
  refine ⟨_, hstep, State.countStep_ac _, fun b => ?_, pcPastInstruction_countStep hpc, hcounted⟩
  exact (State.countStep_readByte _ b).trans (hmem b)

/-- The whole step of a load. -/
theorem step_of_loadsFrom {s : State} {a : Addr} (hr : s.run = .running)
    (h : LoadsFrom s (decode (s.readByte s.pc)) a) :
    ∃ t, step s = .next t ∧ t.ac = s.readByte a ∧ SameMemory s t ∧ PcPastInstruction s t ∧
      CountedStep s t :=
  step_of_writeAc hr (exec_of_loadsFrom (loadsFrom_fetched.mpr h))

/-- The whole step of a store: the cell, its frame, PC and the count. -/
theorem step_of_storesTo_frame {s : State} {a : Addr} (hr : s.run = .running)
    (h : StoresTo s (decode (s.readByte s.pc)) a) :
    ∃ t, step s = .next t ∧ t.readByte a = s.ac ∧ SameMemoryBut a s t ∧ t.ac = s.ac ∧
      PcPastInstruction s t ∧ CountedStep s t := by
  obtain ⟨hmem, hac, hpc, hcontrol⟩ := s.emitTrace.advancePc.writeByte_frame a s.ac
  obtain ⟨hstep, hcounted⟩ :=
    step_of_sameControl hr (exec_of_storesTo (storesTo_fetched.mpr h)) hcontrol
  refine ⟨_, hstep, ?_, fun b hb => ?_, (State.countStep_ac _).trans hac,
    pcPastInstruction_countStep hpc, hcounted⟩
  · rw [State.countStep_readByte]
    exact State.readByte_writeByte_same _ a s.ac
  · exact (State.countStep_readByte _ b).trans (hmem b hb)

/-! ## The obligations -/

/-- Settles O4. -/
theorem ldaLoadsTheAddressedCell : Obligations.LdaLoadsTheAddressedCell :=
  ⟨occupiesBytes_of_opcode 1 (fun _ => rfl) fun _ => rfl, fun a s =>
    ⟨_, exec_of_loadsFrom (loadsFrom_lda s a), State.writeAc_ac _ _, s.writeAc_frame _⟩⟩

/-- Settles O5: the cell loaded is the one at the indirect address, which is the pointer byte modulo
16. -/
theorem ldiLoadsThroughThePointer : Obligations.LdiLoadsThroughThePointer := by
  unfold Obligations.LdiLoadsThroughThePointer
  refine ⟨occupiesBytes_of_opcode 2 (fun _ => rfl) fun _ => rfl, fun a s => ?_⟩
  refine ⟨_, exec_of_loadsFrom (loadsFrom_ldi s a), fun p hp => ?_, s.writeAc_frame _⟩
  rw [State.writeAc_ac, State.indirectAddress_eq hp]

/-- Settles O6. -/
theorem staStoresTheAccumulator : Obligations.StaStoresTheAccumulator :=
  ⟨occupiesBytes_of_opcode 3 (fun _ => rfl) fun _ => rfl, fun a s =>
    ⟨_, exec_of_storesTo (storesTo_sta s a), s.readByte_writeByte_same a _,
      s.writeByte_frame a _⟩⟩

/-- Settles O7: the indirect address is the one before the write, and the pointer cell is one of the
other cells unless it is that address. -/
theorem stiStoresThroughThePointer : Obligations.StiStoresThroughThePointer := by
  unfold Obligations.StiStoresThroughThePointer
  refine ⟨occupiesBytes_of_opcode 4 (fun _ => rfl) fun _ => rfl, fun a s => ?_⟩
  obtain ⟨hothers, hregs⟩ := s.writeByte_frame (s.indirectAddress a) s.ac
  refine ⟨_, exec_of_storesTo (storesTo_sti s a), s.indirectAddress_toNat a, ?_,
    fun hne => hothers a hne.symm, hregs⟩
  rintro w rfl
  exact ⟨s.readByte_writeByte_same _ _, hothers⟩

/-- Settles O16: both bytes decode to a load, of the addressed cell and of the one the pointer names. -/
theorem loadStepsFromTheirBytes : Obligations.LoadStepsFromTheirBytes := by
  unfold Obligations.LoadStepsFromTheirBytes
  refine fun a s hr => ⟨fun hat => ?_, fun hat => ?_⟩
  · have hdecode := State.decode_of_atPc (i := .lda a) hat
    exact step_of_loadsFrom hr (hdecode ▸ loadsFrom_lda s a)
  · have hdecode := State.decode_of_atPc (i := .ldi a) hat
    obtain ⟨t, hstep, hac, hrest⟩ := step_of_loadsFrom hr (hdecode ▸ loadsFrom_ldi s a)
    exact ⟨t, hstep, fun p hp => by rw [hac, State.indirectAddress_eq hp], hrest⟩

/-- Settles O17: both bytes decode to a store, to the addressed cell and to the one the pointer names. -/
theorem storeStepsFromTheirBytes : Obligations.StoreStepsFromTheirBytes := by
  unfold Obligations.StoreStepsFromTheirBytes
  refine fun a s hr => ⟨fun hat => ?_, fun hat => ?_⟩
  · have hdecode := State.decode_of_atPc (i := .sta a) hat
    exact step_of_storesTo_frame hr (hdecode ▸ storesTo_sta s a)
  · have hdecode := State.decode_of_atPc (i := .sti a) hat
    obtain ⟨t, hstep, hcell, hothers, hrest⟩ :=
      step_of_storesTo_frame hr (hdecode ▸ storesTo_sti s a)
    refine ⟨t, hstep, ?_, hrest⟩
    rintro w rfl
    exact ⟨hcell, hothers⟩

end Sys2Proof.Machine
end

section
/-! # Arithmetic: proofs for spec/42_arithmetic.md

Settles O8, O9, O14 and O18. ADD and SUB are the write to AC of the exact integer result reduced to a
byte. The reduction keeps the result's residue modulo 256, and a byte's signed view has the residue of
the byte; so the unsigned and the signed readings of both instructions agree. -/

namespace Sys2Proof.Machine

/-! ## The effects (R141, R142) -/

/-- The effect of ADD is the write of the ALU's sum to AC, and nothing else. -/
theorem exec_add (a : Addr) (s : State) :
    exec (.add a) s = .next (s.writeAc (aluAdd s.ac (s.readByte a))) := rfl

/-- The effect of SUB is the write of the ALU's difference to AC, and nothing else. -/
theorem exec_sub (a : Addr) (s : State) :
    exec (.sub a) s = .next (s.writeAc (aluSub s.ac (s.readByte a))) := rfl

/-- The difference as R142 words it, in the integers. -/
theorem coe_aluSub_toNat (a b : Byte) :
    ((aluSub a b).toNat : Int) = ((a.toNat : Int) - (b.toNat : Int)) % 256 :=
  narrowToByte_toNat _

/-! ## The signed view modulo 256 (R9, R140) -/

/-- Both readings of a byte have the same residue. -/
theorem signedView_modEq (b : Byte) : signedView b ≡ b.toNat [ZMOD 256] := by
  unfold signedView
  split
  case isTrue => rfl
  case isFalse => exact Int.sub_emod_right _ _

/-- Reducing an integer to a byte keeps its residue in the signed reading too. -/
theorem signedView_narrowToByte_modEq (x : Int) : signedView (narrowToByte x) ≡ x [ZMOD 256] :=
  calc signedView (narrowToByte x)
    _ ≡ (narrowToByte x).toNat [ZMOD 256] := signedView_modEq _
    _ = x % 256 := narrowToByte_toNat x
    _ ≡ x [ZMOD 256] := Int.mod_modEq x 256

theorem signedView_aluAdd_modEq (a b : Byte) :
    signedView (aluAdd a b) ≡ signedView a + signedView b [ZMOD 256] :=
  calc signedView (aluAdd a b)
    _ ≡ a.toNat + b.toNat [ZMOD 256] := signedView_narrowToByte_modEq _
    _ ≡ signedView a + signedView b [ZMOD 256] :=
      ((signedView_modEq a).add (signedView_modEq b)).symm

theorem signedView_aluSub_modEq (a b : Byte) :
    signedView (aluSub a b) ≡ signedView a - signedView b [ZMOD 256] :=
  calc signedView (aluSub a b)
    _ ≡ a.toNat - b.toNat [ZMOD 256] := signedView_narrowToByte_modEq _
    _ ≡ signedView a - signedView b [ZMOD 256] :=
      ((signedView_modEq a).sub (signedView_modEq b)).symm

/-! ## The obligations -/

/-- Settles O8: opcode 5 is ADD's alone, and its effect is the write of the sum to AC. -/
theorem addWrapsModulo256 : Obligations.AddWrapsModulo256 :=
  ⟨occupiesBytes_of_opcode 5 (fun _ => rfl) fun _ => rfl, fun a s =>
    ⟨_, exec_add a s, aluAdd_toNat s.ac (s.readByte a), s.writeAc_frame _⟩⟩

/-- Settles O9: opcode 6 is SUB's alone, and its effect is the write of the difference to AC. -/
theorem subWrapsModulo256 : Obligations.SubWrapsModulo256 :=
  ⟨occupiesBytes_of_opcode 6 (fun _ => rfl) fun _ => rfl, fun a s =>
    ⟨_, exec_sub a s, coe_aluSub_toNat s.ac (s.readByte a), s.writeAc_frame _⟩⟩

/-- Settles O14: congruence modulo 256 is a difference of remainder 0. -/
theorem signedReadingsGiveTheSameBits : Obligations.SignedReadingsGiveTheSameBits := by
  unfold Obligations.SignedReadingsGiveTheSameBits
  refine fun a s => ⟨⟨_, exec_add a s, ?_⟩, ⟨_, exec_sub a s, ?_⟩⟩
  · exact Int.emod_eq_emod_iff_emod_sub_eq_zero.mp (signedView_aluAdd_modEq s.ac (s.readByte a))
  · exact Int.emod_eq_emod_iff_emod_sub_eq_zero.mp (signedView_aluSub_modEq s.ac (s.readByte a))

/-- Settles O18: both bytes decode to a write of AC, and the record and the fetch change neither
operand. -/
theorem arithmeticStepsFromTheirBytes : Obligations.ArithmeticStepsFromTheirBytes := by
  unfold Obligations.ArithmeticStepsFromTheirBytes
  refine fun a s hr => ⟨fun hat => ?_, fun hat => ?_⟩
  · have hdecode := State.decode_of_atPc (i := .add a) hat
    obtain ⟨t, hstep, hac, hrest⟩ := step_of_writeAc hr (hdecode ▸ exec_add a _)
    exact ⟨t, hstep, by rw [hac]; exact aluAdd_toNat s.ac (s.readByte a), hrest⟩
  · have hdecode := State.decode_of_atPc (i := .sub a) hat
    obtain ⟨t, hstep, hac, hrest⟩ := step_of_writeAc hr (hdecode ▸ exec_sub a _)
    exact ⟨t, hstep, by rw [hac]; exact coe_aluSub_toNat s.ac (s.readByte a), hrest⟩

end Sys2Proof.Machine
end

section
/-! # Control: proofs for spec/43_control.md

Settles O10 to O13, O19, O20 and O32. JMP and JMZ, taken or not, are the write of PC; HLT and the
seven illegal opcodes are a halt. The frame of each is stated once, for the effect alone and for the
whole step. -/

namespace Sys2Proof.Machine

/-! ## Jumps (R151, R152) -/

/-- A write of PC changes nothing else. -/
theorem State.writePc_frame (s : State) (p : Addr) :
    (s.writePc p).ac = s.ac ∧ SameMemory s (s.writePc p) ∧ SameControl s (s.writePc p) :=
  ⟨rfl, fun b => s.writePc_readByte b p, rfl, rfl, rfl, rfl⟩

/-- The effect of JMP is the write of its operand to PC, and nothing else. -/
theorem exec_jmp (a : Addr) (s : State) : exec (.jmp a) s = .next (s.writePc a) := rfl

/-- The effect of JMZ is a write of PC too: a JMZ that is not taken writes back what PC holds. -/
theorem exec_jmz (a : Addr) (s : State) :
    exec (.jmz a) s = .next (s.writePc (if s.ac = 0 then a else s.pc)) := by
  change Host.Outcome.next (if s.acIsZero then s.writePc a else s) = _
  by_cases hz : s.ac = 0
  · rw [if_pos (s.acIsZero_iff.mpr hz), if_pos hz]
  · rw [if_neg (s.acIsZero_iff.not.mpr hz), if_neg hz]
    rfl

/-- The whole step of an instruction whose effect is the write of `p` to PC. -/
theorem step_of_writePc {s : State} {p : Addr} (hr : s.run = .running)
    (he : exec (decode (s.readByte s.pc)) s.emitTrace.advancePc =
      .next (s.emitTrace.advancePc.writePc p)) :
    ∃ t, step s = .next t ∧ t.pc = p ∧ t.ac = s.ac ∧ SameMemory s t ∧ CountedStep s t := by
  obtain ⟨hac, hmem, hcontrol⟩ := s.emitTrace.advancePc.writePc_frame p
  obtain ⟨hstep, hcounted⟩ := step_of_sameControl hr he hcontrol
  refine ⟨_, hstep, State.countStep_pc _, (State.countStep_ac _).trans hac, fun b => ?_, hcounted⟩
  exact (State.countStep_readByte _ b).trans (hmem b)

/-- The whole step of JMP. -/
theorem step_of_jmp {s : State} {a : Addr} (hr : s.run = .running)
    (h : decode (s.readByte s.pc) = .jmp a) :
    ∃ t, step s = .next t ∧ t.pc = a ∧ t.ac = s.ac ∧ SameMemory s t ∧ CountedStep s t :=
  step_of_writePc hr (h ▸ exec_jmp a _)

/-! ## Halts at the dispatch (R150, R153, R105) -/

/-- A halt changes the run state and appends its report, and nothing else. -/
theorem State.halt_frame (s : State) (c : HaltCause) :
    (s.halt c).run = .halted c ∧ (s.halt c).output = s.output ++ [.report c] ∧
      (s.halt c).ac = s.ac ∧ (s.halt c).pc = s.pc ∧ (s.halt c).ic = s.ic ∧
      (s.halt c).maxIC = s.maxIC ∧ SameMemory s (s.halt c) :=
  ⟨rfl, rfl, rfl, rfl, rfl, rfl, fun b => s.halt_readByte b c⟩

/-- The effect of HLT is its halt. -/
theorem exec_hlt (x : Nibble) (s : State) : exec (.hlt x) s = .next (s.halt .hlt) := rfl

/-- The effect of every instruction of an opcode from 9 on is the halt of the illegal instruction. -/
theorem exec_of_nine_le_opcode {i : Instr} (h : 9 ≤ i.opcode.toNat) (s : State) :
    exec i s = .next (s.halt .illegalInstruction) := by
  cases i with
  | illegal9 | illegal10 | illegal11 | illegal12 | illegal13 | illegal14 | illegal15 => rfl
  | hlt | lda | ldi | sta | sti | add | sub | jmp | jmz => simp [Instr.opcode] at h

/-- The byte at PC decodes to an instruction of the opcode that it spells. -/
theorem State.opcode_of_atPc {s : State} {op : Nat} {x : Nibble} (h : s.atPc op x) :
    (decode (s.readByte s.pc)).opcode.toNat = op := by
  have hx : x.toNat < 16 := x.isLt
  rw [decode_opcode, opcodeField_toNat, h]
  omega

/-- The whole step of an instruction whose effect is a halt: part 5 does nothing. -/
theorem step_of_halt {s : State} {c : HaltCause} (hr : s.run = .running)
    (he : exec (decode (s.readByte s.pc)) s.emitTrace.advancePc =
      .next (s.emitTrace.advancePc.halt c)) :
    ∃ t, step s = .next t ∧ t.ac = s.ac ∧ SameMemory s t ∧ PcPastInstruction s t ∧
      HaltedStep c s t := by
  obtain ⟨hrun, _, hac, _, hic, hmax, hmem⟩ := s.emitTrace.advancePc.halt_frame c
  refine ⟨s.emitTrace.advancePc.halt c, ?_, hac, hmem, nextPc_toNat s.pc, hic, hmax, hrun, by simp⟩
  rw [step_running hr, he, finishStep, State.countStep_halted hrun]

/-! ## A jump to itself (R151, R107, D4) -/

/-- Part 5 without a limit only counts. -/
theorem State.countStep_unlimited {s : State} (hr : s.run = .running) (hm : s.maxIC = none) :
    s.countStep = s.writeIc (s.ic + 1) := by
  rcases State.countStep_running hr with ⟨hl, _⟩ | ⟨_, e⟩
  · simp [hm] at hl
  · exact e

/-- `s` with `k` more steps counted and `k` copies of its record emitted: what a jump to itself
leaves after `k` steps. -/
def State.afterRepeats (s : State) (k : Nat) : State :=
  { s with ic := s.ic + k, output := s.output ++ List.replicate k (.trace s.record) }

/-- One repetition and then `k` are `k + 1`: what is counted is no part of the record. -/
theorem State.afterRepeats_one_afterRepeats (s : State) (k : Nat) :
    (s.afterRepeats 1).afterRepeats k = s.afterRepeats (k + 1) := by
  have hic : s.ic + 1 + k = s.ic + (k + 1) := by omega
  have hrecord : (s.afterRepeats 1).record = s.record := rfl
  rw [State.afterRepeats, hrecord]
  simp [State.afterRepeats, hic, List.replicate_succ]

/-- Without a limit a JMP to its own address only counts and emits: it writes back the PC that the
fetch incremented. -/
theorem step_of_jmp_self {s : State} (hr : s.run = .running) (hm : s.maxIC = none)
    (h : decode (s.readByte s.pc) = .jmp s.pc) : step s = .next (s.afterRepeats 1) := by
  have hu : exec (decode (s.readByte s.pc)) s.emitTrace.advancePc =
      .next (s.emitTrace.advancePc.writePc s.pc) := h ▸ exec_jmp s.pc _
  rw [step_running hr, hu, finishStep,
    State.countStep_unlimited (s := s.emitTrace.advancePc.writePc s.pc) hr hm]
  rfl

/-! ## The obligations -/

/-- Settles O32, by induction on the number of steps: each step leads to a state of which the
hypotheses hold again. -/
theorem jmpToItselfRunsForever : Obligations.JmpToItselfRunsForever := by
  unfold Obligations.JmpToItselfRunsForever
  intro s k hr hm h
  change runSteps k s = .next (s.afterRepeats k)
  induction k generalizing s with
  | zero => simp [State.afterRepeats]
  | succ k ih =>
    rw [runSteps_succ k (step_of_jmp_self hr hm h), ih (s.afterRepeats 1) hr hm h,
      State.afterRepeats_one_afterRepeats]

/-- Settles O10: opcode 7 is JMP's alone, and its effect is the write of the operand to PC. -/
theorem jmpSetsThePc : Obligations.JmpSetsThePc := by
  unfold Obligations.JmpSetsThePc
  refine ⟨occupiesBytes_of_opcode 7 (fun _ => rfl) fun _ => rfl, fun a s =>
    ⟨_, exec_jmp a s, s.writePc_pc a, s.writePc_frame a⟩, fun a s hr h => ?_⟩
  obtain ⟨t, hstep, hpc, hac, hmem, hic, _⟩ := step_of_jmp hr h
  exact ⟨t, hstep, hpc, hac, hmem, hic⟩

/-- Settles O11: opcode 8 is JMZ's alone, and all 8 bits of AC are 0 exactly if it is the number
0. -/
theorem jmzJumpsOnlyWhenAcIsZero : Obligations.JmzJumpsOnlyWhenAcIsZero := by
  unfold Obligations.JmzJumpsOnlyWhenAcIsZero
  refine ⟨occupiesBytes_of_opcode 8 (fun _ => rfl) fun _ => rfl, fun a s => ?_⟩
  have hzero : s.ac.toNat = 0 ↔ s.ac = 0 := (BitVec.toNat_eq (x := s.ac) (y := 0)).symm
  exact ⟨_, exec_jmz a s, fun hz => if_pos (hzero.mp hz), fun hz => if_neg (hzero.not.mp hz),
    s.writePc_frame _⟩

/-- Settles O19: both bytes decode to a write of PC, and a JMZ not taken writes the PC that the
fetch left. -/
theorem jumpStepsFromTheirBytes : Obligations.JumpStepsFromTheirBytes := by
  unfold Obligations.JumpStepsFromTheirBytes
  refine fun a s hr => ⟨fun hat => ?_, fun hat => ?_⟩
  · exact step_of_jmp hr (State.decode_of_atPc (i := .jmp a) hat)
  · have hdecode := State.decode_of_atPc (i := .jmz a) hat
    obtain ⟨t, hstep, hpc, hrest⟩ := step_of_writePc hr (hdecode ▸ exec_jmz a _)
    refine ⟨t, hstep, fun hz => hpc.trans (if_pos hz), fun hz => ?_, hrest⟩
    have hnext : t.pc = nextPc s.pc := hpc.trans (if_neg hz)
    rw [PcPastInstruction, hnext, nextPc_toNat]

/-- Settles O20: the first byte decodes to HLT, the other to an instruction of its opcode, and the
effect of both is a halt. -/
theorem haltingStepsFromTheirBytes : Obligations.HaltingStepsFromTheirBytes := by
  unfold Obligations.HaltingStepsFromTheirBytes
  refine fun x s hr => ⟨fun hat => ?_, fun op hop hat => ?_⟩
  · have hdecode := State.decode_of_atPc (i := .hlt x) hat
    exact step_of_halt hr (hdecode ▸ exec_hlt x _)
  · have hopcode := State.opcode_of_atPc hat
    exact step_of_halt hr (exec_of_nine_le_opcode (hopcode ▸ hop) _)

/-- Settles O12. -/
theorem hltHalts : Obligations.HltHalts :=
  fun x s => ⟨_, exec_hlt x s, s.halt_frame .hlt⟩

/-- Settles O13: the seven opcodes are 9 to 15. -/
theorem illegalOpcodesHalt : Obligations.IllegalOpcodesHalt := by
  unfold Obligations.IllegalOpcodesHalt
  intro x s i hi
  have hopcode : 9 ≤ i.opcode.toNat := by
    simp only [List.mem_cons, List.not_mem_nil, or_false] at hi
    rcases hi with rfl | rfl | rfl | rfl | rfl | rfl | rfl <;> simp [Instr.opcode]
  exact ⟨_, exec_of_nine_le_opcode hopcode s, s.halt_frame .illegalInstruction⟩

end Sys2Proof.Machine
end

section
/-! # Exceptions: proofs for spec/60_exceptions.md

Settles O27 and O29. Every step answers next, so every run does. An instruction's effect neither reads
nor writes IC, and without a limit the count adds its 0 or 1 whatever IC holds. -/

namespace Sys2Proof.Machine

/-! ## Every step answers next (R170, R52) -/

/-- No step ends in a fault or a refusal. -/
theorem step_answers_next (s : State) : ∃ t, step s = .next t := by
  rcases s.run_cases with hr | ⟨c, hc⟩
  · obtain ⟨t, hstep, _⟩ := step_halts_or_counts hr
    exact ⟨t, hstep⟩
  · exact ⟨s, step_halted hc⟩

/-- Settles O29, by induction on the number of steps. -/
theorem noRunFaultsOrIsRefused : Obligations.NoRunFaultsOrIsRefused := by
  unfold Obligations.NoRunFaultsOrIsRefused
  intro k
  induction k with
  | zero => exact fun s => ⟨s, runSteps_zero s⟩
  | succ k ih =>
    intro s
    obtain ⟨u, hstep⟩ := step_answers_next s
    rw [runSteps_succ k hstep]
    exact ih u

/-! ## No instruction reads IC (R24, R179) -/

/-- The effect of an instruction with another IC is its effect but for that IC. -/
theorem exec_writeIc (n : Nat) {i : Instr} {s u : State} (h : exec i s = .next u) :
    exec i (s.writeIc n) = .next (u.writeIc n) := by
  cases i with
  | jmz a =>
    obtain rfl := Host.Outcome.next.inj ((exec_jmz a s).symm.trans h)
    exact exec_jmz a (s.writeIc n)
  | hlt | lda | ldi | sta | sti | add | sub | jmp | illegal9 | illegal10 | illegal11 | illegal12
  | illegal13 | illegal14 | illegal15 =>
    rw [← Host.Outcome.next.inj h]
    rfl

/-- No effect, a halt included, writes IC or MAX_IC. -/
theorem exec_ic_maxIC {i : Instr} {s u : State} (h : exec i s = .next u) :
    u.ic = s.ic ∧ u.maxIC = s.maxIC := by
  rcases exec_halts_or_keeps_control i s with ⟨c, he⟩ | ⟨v, he, hic, _, hmax, _⟩
  · obtain rfl := Host.Outcome.next.inj (he.symm.trans h)
    exact ⟨s.halt_ic c, s.halt_maxIC c⟩
  · obtain rfl := Host.Outcome.next.inj (he.symm.trans h)
    exact ⟨hic, hmax⟩

/-- Without a limit part 5 adds to IC a 0 (after a halt) or a 1 that does not depend on IC, and does
nothing else. -/
theorem State.countStep_writeIc {u : State} (hm : u.maxIC = none) :
    ∃ counted ≤ 1, ∀ n, (u.writeIc n).countStep = u.writeIc (n + counted) := by
  rcases u.run_cases with hr | ⟨c, hc⟩
  · exact ⟨1, le_rfl, fun n => State.countStep_unlimited (s := u.writeIc n) hr hm⟩
  · exact ⟨0, Nat.zero_le 1, fun n => State.countStep_halted (s := u.writeIc n) hc⟩

/-- Settles O27: the instruction that runs is chosen by memory and PC, its effect goes on with the
other IC, and the count adds the same amount to both. -/
theorem icIsReadOnlyByTheLimitCheck : Obligations.IcIsReadOnlyByTheLimitCheck := by
  unfold Obligations.IcIsReadOnlyByTheLimitCheck
  intro s t n hm h
  rcases step_cases h with ⟨c, hc, rfl⟩ | ⟨hr, u, hu, rfl⟩
  · exact ⟨0, Nat.zero_le 1, rfl, step_halted (s := t.writeIc n) hc⟩
  · obtain ⟨hic, hmax⟩ := exec_ic_maxIC hu
    obtain ⟨counted, hle, hcount⟩ := State.countStep_writeIc (hmax.trans hm)
    have hown : u.countStep = u.writeIc (s.ic + counted) := hic ▸ hcount u.ic
    refine ⟨counted, hle, by rw [hown, State.writeIc_ic], ?_⟩
    have hother : step (s.writeIc n) = .next (u.writeIc n).countStep :=
      (step_running (s := s.writeIc n) hr).trans
        (finishStep_eq_next.mpr ⟨_, exec_writeIc n hu, rfl⟩)
    rw [hown]
    exact hother.trans (congrArg _ (hcount n))

end Sys2Proof.Machine
end

section
/-! # Reset and hazards: proofs for spec/70_reset_and_hazards.md

Settles O33 and O35. A well-formed load is accepted and reads nothing of the state before it, so both
are facts about `State.loaded`: the cells of its memory are the image's bytes, and bytes that an
unlisted cell reads as list no cell. -/

namespace Sys2Proof.Machine

/-! ## What an accepted load sets (R190) -/

/-- A load of a 16-byte image with a limit that is absent or positive is accepted, from any state. -/
theorem load_accepted {image : List Byte} {limit : Option Nat} (hlength : image.length = 16)
    (hlimit : limit ≠ some 0) (s : State) :
    load image limit s = .next (State.loaded image limit) := by
  rcases load_cases image limit s with ⟨hne, _⟩ | ⟨_, hzero, _⟩ | ⟨_, _, hload⟩
  · exact absurd hlength hne
  · exact absurd hzero hlimit
  · exact hload

/-- The memory of a 16-byte image shows the image. -/
theorem Memory.snapshot_ofImage {image : List Byte} (h : image.length = 16) :
    (Memory.ofImage image).snapshot = image := by
  apply List.ext_getElem
  · rw [Memory.snapshot_length, h]
  · intro i _ hi
    rw [Memory.getElem_snapshot _ (h ▸ hi), Memory.read_ofImage hi]

/-! ## The image of zeros (R190, R191, log 1) -/

/-- In a memory that lists no cell, a store of what an unlisted cell reads as lists none. -/
theorem Memory.store_unlisted_nil (a : Nat) : Memory.store [] a Memory.unlisted = [] := by
  simp [Memory.store]

/-- Bytes that an unlisted cell reads as list no cell. -/
theorem Memory.place_replicate_unlisted (n first : Nat) :
    Memory.place [] first (List.replicate n Memory.unlisted) = [] := by
  induction n generalizing first with
  | zero => rfl
  | succ n ih => rw [List.replicate_succ, Memory.place, Memory.store_unlisted_nil, ih]

/-- Loading zeros without a limit leaves the engine as after reset. -/
theorem State.loaded_replicate_unlisted (n : Nat) :
    State.loaded (List.replicate n Memory.unlisted) none = State.reset := by
  rw [State.loaded, Memory.ofImage, Memory.place_replicate_unlisted, State.reset]

/-! ## The obligations -/

/-- Settles O33: the accepted load sets each register as stated, and its memory reads and shows the
image. -/
theorem loadSetsEveryField : Obligations.LoadSetsEveryField := by
  unfold Obligations.LoadSetsEveryField
  intro image limit s hlength hlimit
  exact ⟨State.loaded image limit, load_accepted hlength hlimit s,
    State.loaded_readByte hlength limit, Memory.snapshot_ofImage hlength,
    rfl, rfl, rfl, rfl, rfl, rfl⟩

/-- Settles O35: 16 zeros are a well-formed image, and they list no cell. -/
theorem resetIsTheLoadOfZeros : Obligations.ResetIsTheLoadOfZeros := by
  unfold Obligations.ResetIsTheLoadOfZeros
  intro s
  rw [load_accepted List.length_replicate (Option.some_ne_none 0).symm]
  exact congrArg _ (State.loaded_replicate_unlisted 16)

end Sys2Proof.Machine
end

section
/-! # The whole engine: proofs that span the chapters of spec/

Settles O15, O22, O25, O31, O34, O37, O39, O40, O41, O42, O44 and O45. One inversion carries most of
them: the opcode at PC decides whether a Running step halts at its dispatch, and with which cause, or
counts its instruction. The clauses of a safe state are each kept along these two ends; a statement about
a run from a load is then read off the safe state that the run has reached. -/

namespace Sys2Proof.Machine

/-! ## The opcode decides how a Running step ends (R105, R107, R174) -/

/-- The dispatch of the opcode `op` halts with the cause `c`: HLT is opcode 0, and the illegal opcodes
are those from 9 on. The limit halts no dispatch. -/
def DispatchHalts : HaltCause → Nat → Prop
  | .hlt, op => op = 0
  | .illegalInstruction, op => 9 ≤ op
  | .instructionLimit, _ => False

theorem DispatchHalts.ne_instructionLimit {c : HaltCause} {op : Nat} (h : DispatchHalts c op) :
    c ≠ .instructionLimit := by
  rintro rfl
  exact h

/-- The effect of an instruction whose opcode halts is that halt. -/
theorem exec_of_dispatchHalts {i : Instr} {c : HaltCause} (h : DispatchHalts c i.opcode.toNat)
    (s : State) : exec i s = .next (s.halt c) := by
  cases c with
  | hlt =>
    cases i with
    | hlt x => exact exec_hlt x s
    | lda | ldi | sta | sti | add | sub | jmp | jmz | illegal9 | illegal10 | illegal11 | illegal12
    | illegal13 | illegal14 | illegal15 => simp [DispatchHalts, Instr.opcode] at h
  | illegalInstruction => exact exec_of_nine_le_opcode h s
  | instructionLimit => exact absurd h id

/-- The effect of an instruction of opcode 1 to 8 leaves IC, run, MAX_IC and the output alone. -/
theorem exec_of_opcode_one_to_eight {i : Instr} (hlo : 1 ≤ i.opcode.toNat)
    (hhi : i.opcode.toNat ≤ 8) (s : State) : ∃ u, exec i s = .next u ∧ SameControl s u := by
  cases i with
  | lda | ldi | sta | sti | add | sub | jmp => exact ⟨_, rfl, rfl, rfl, rfl, rfl⟩
  | jmz a => exact ⟨_, exec_jmz a s, rfl, rfl, rfl, rfl⟩
  | hlt => simp [Instr.opcode] at hlo
  | illegal9 | illegal10 | illegal11 | illegal12 | illegal13 | illegal14 | illegal15 =>
    simp [Instr.opcode] at hhi

/-- A Running step ends as the opcode at PC says: it halts at its dispatch, with PC past the
instruction and memory as it was, or it counts its instruction. -/
theorem step_ends_by_opcode {s t : State} (hr : s.run = .running) (h : step s = .next t) :
    (∃ c, DispatchHalts c ((s.readByte s.pc).toNat / 16) ∧ SameMemory s t ∧
      PcPastInstruction s t ∧ HaltedStep c s t) ∨
    (1 ≤ (s.readByte s.pc).toNat / 16 ∧ (s.readByte s.pc).toNat / 16 ≤ 8 ∧ CountedStep s t) := by
  have hopcode : (decode (s.readByte s.pc)).opcode.toNat = (s.readByte s.pc).toNat / 16 := by
    rw [decode_opcode, opcodeField_toNat]
  rw [← hopcode]
  have hhalts : ∀ c, DispatchHalts c (decode (s.readByte s.pc)).opcode.toNat →
      SameMemory s t ∧ PcPastInstruction s t ∧ HaltedStep c s t := fun c hc => by
    obtain ⟨v, hstep, _, hends⟩ := step_of_halt hr (exec_of_dispatchHalts hc _)
    obtain rfl := Host.Outcome.next.inj (hstep.symm.trans h)
    exact hends
  by_cases hzero : (decode (s.readByte s.pc)).opcode.toNat = 0
  · exact .inl ⟨.hlt, hzero, hhalts .hlt hzero⟩
  by_cases hnine : 9 ≤ (decode (s.readByte s.pc)).opcode.toNat
  · exact .inl ⟨.illegalInstruction, hnine, hhalts .illegalInstruction hnine⟩
  have hlo : 1 ≤ (decode (s.readByte s.pc)).opcode.toNat := by omega
  have hhi : (decode (s.readByte s.pc)).opcode.toNat ≤ 8 := by omega
  obtain ⟨u, hu, hcontrol⟩ := exec_of_opcode_one_to_eight hlo hhi s.emitTrace.advancePc
  obtain ⟨hstep, hcounted⟩ := step_of_sameControl hr hu hcontrol
  obtain rfl := Host.Outcome.next.inj (hstep.symm.trans h)
  exact .inr ⟨hlo, hhi, hcounted⟩

/-- A counted step halts at the limit or leaves the engine Running. -/
theorem countedStep_cases {s t : State} (h : CountedStep s t) :
    t.ic = s.ic + 1 ∧ t.maxIC = s.maxIC ∧
    ((s.limitNext ∧ t.run = .halted .instructionLimit ∧
        t.output = s.output ++ [.trace s.record, .report .instructionLimit]) ∨
      (¬ s.limitNext ∧ t.run = .running ∧ t.output = s.output ++ [.trace s.record])) := by
  obtain ⟨hic, hmax, hlimit, hopen⟩ := h
  by_cases hl : s.limitNext
  · exact ⟨hic, hmax, .inl ⟨hl, hlimit hl⟩⟩
  · exact ⟨hic, hmax, .inr ⟨hl, hopen hl⟩⟩

/-- Settles O22: each range of opcodes excludes the other ends. -/
theorem everyRunningStepHaltsOrCounts : Obligations.EveryRunningStepHaltsOrCounts := by
  unfold Obligations.EveryRunningStepHaltsOrCounts
  intro s hr
  obtain ⟨t, h⟩ := step_answers_next s
  refine ⟨t, h, ?_⟩
  rcases step_ends_by_opcode hr h with ⟨c, hc, _, _, hhalted⟩ | ⟨hlo, hhi, hcounted⟩
  · cases c with
    | hlt =>
      simp only [DispatchHalts] at hc
      exact ⟨fun _ => hhalted, by omega, by omega⟩
    | illegalInstruction =>
      simp only [DispatchHalts] at hc
      exact ⟨by omega, fun _ => hhalted, by omega⟩
    | instructionLimit => exact absurd hc id
  · exact ⟨by omega, by omega, fun _ _ => hcounted⟩

/-- Settles O15: the state with the record emitted and PC incremented is the one the fetch leaves. -/
theorem stepRunsTheDecodedInstruction : Obligations.StepRunsTheDecodedInstruction := by
  unfold Obligations.StepRunsTheDecodedInstruction
  rintro s _ hr - rfl
  exact ⟨step_running hr, nextPc_toNat s.pc, fun _ => rfl⟩

/-! ## PC after a step (R23, R172, D1) -/

/-- PC one past the instruction, modulo 16, is the PC that the fetch sets. -/
theorem pcPastInstruction_iff {s t : State} : PcPastInstruction s t ↔ t.pc = nextPc s.pc := by
  rw [PcPastInstruction, ← nextPc_toNat, BitVec.toNat_inj]

/-- The effect of an instruction that is no JMP and no taken JMZ leaves PC as it is. -/
theorem exec_pc {i : Instr} {s u : State} (h : exec i s = .next u) (hjmp : ∀ a, i ≠ .jmp a)
    (hjmz : ∀ a, i = .jmz a → s.ac ≠ 0) : u.pc = s.pc := by
  cases i with
  | jmp a => exact absurd rfl (hjmp a)
  | jmz a =>
    rw [← Host.Outcome.next.inj ((exec_jmz a s).symm.trans h), State.writePc_pc,
      if_neg (hjmz a rfl)]
  | hlt | lda | ldi | sta | sti | add | sub | illegal9 | illegal10 | illegal11 | illegal12
  | illegal13 | illegal14 | illegal15 =>
    rw [← Host.Outcome.next.inj h]
    rfl

/-- Settles O25: a JMP and a taken JMZ write PC, every other effect leaves it where the fetch put it,
and the count keeps it. -/
theorem pcAfterEveryStep : Obligations.PcAfterEveryStep := by
  unfold Obligations.PcAfterEveryStep
  intro s t hr h
  refine ⟨fun a hdecode => ?_, fun a hdecode hz => ?_, fun hjmp hjmz => ?_⟩
  · obtain ⟨v, hstep, hpc, _⟩ := step_of_jmp hr hdecode
    obtain rfl := Host.Outcome.next.inj (hstep.symm.trans h)
    exact hpc
  · obtain ⟨v, hstep, hpc, _⟩ := step_of_writePc hr (hdecode ▸ exec_jmz a _)
    obtain rfl := Host.Outcome.next.inj (hstep.symm.trans h)
    exact hpc.trans (if_pos hz)
  · rw [step_running hr] at h
    obtain ⟨u, hu, rfl⟩ := finishStep_eq_next.mp h
    exact pcPastInstruction_countStep (exec_pc hu hjmp hjmz)

/-- After a halt at the dispatch the byte before PC is still the one at the PC before the step. -/
theorem readByte_before_pc {s t : State} (hpc : PcPastInstruction s t) (hmem : SameMemory s t) :
    t.pc - 1 = s.pc ∧ t.readByte (t.pc - 1) = s.readByte s.pc := by
  have hback : t.pc - 1 = s.pc := by rw [pcPastInstruction_iff.mp hpc, nextPc_sub_one]
  exact ⟨hback, by rw [hback, hmem]⟩

/-- Settles O31: of the ends of a step only the dispatch of an opcode from 9 on halts with this
cause. -/
theorem illegalHaltNamesItsByte : Obligations.IllegalHaltNamesItsByte := by
  unfold Obligations.IllegalHaltNamesItsByte
  intro s t hr h hrun
  rcases step_ends_by_opcode hr h with ⟨c, hc, hmem, hpc, _, _, hhalted, _⟩ | ⟨_, _, hcounted⟩
  · obtain rfl : c = .illegalInstruction := by simpa using hhalted.symm.trans hrun
    obtain ⟨hback, hbyte⟩ := readByte_before_pc hpc hmem
    simp only [DispatchHalts] at hc
    exact ⟨hback, hbyte, by rw [hbyte]; omega⟩
  · obtain ⟨_, _, ⟨_, hlimit, _⟩ | ⟨_, hopen, _⟩⟩ := countedStep_cases hcounted
    · simp [hlimit] at hrun
    · simp [hopen] at hrun

/-! ## What every step keeps in memory and in MAX_IC (R29, R27) -/

/-- Settles O37: a step writes at most one cell, and it is one of the 16. -/
theorem everyStepKeepsMemoryCanonical : Obligations.EveryStepKeepsMemoryCanonical := by
  unfold Obligations.EveryStepKeepsMemoryCanonical
  intro s t hwf h
  rcases step_cases h with ⟨_, _, rfl⟩ | ⟨_, u, hu, rfl⟩
  · exact hwf
  · obtain ⟨hcount, _⟩ := u.countStep_frame
    rw [hcount]
    rcases exec_mem hu with ⟨a, hstore⟩ | hmem
    · obtain rfl := Host.Outcome.next.inj ((exec_of_storesTo hstore).symm.trans hu)
      exact State.writeByte_wf (s := s.emitTrace.advancePc) hwf a _
    · rw [hmem]
      exact hwf

/-- MAX_IC is constant for a run. -/
theorem step_maxIC {s t : State} (h : step s = .next t) : t.maxIC = s.maxIC := by
  rcases step_cases h with ⟨_, _, rfl⟩ | ⟨_, u, hu, rfl⟩
  · rfl
  · obtain ⟨_, _, _, hcount⟩ := u.countStep_frame
    obtain ⟨_, hmax⟩ := exec_ic_maxIC hu
    exact hcount.trans hmax

/-! ## The clauses of a safe state, by the run state -/

/-- Below the limit: what a state that the limit did not halt keeps to. -/
theorem countWithinLimit_iff_lt {s : State} (h : s.run ≠ .halted .instructionLimit) :
    CountWithinLimit s ↔ ∀ n, s.maxIC = some n → s.ic < n := by
  unfold CountWithinLimit
  split
  case h_1 | h_2 | h_3 => rfl
  case h_4 hlimit => exact absurd hlimit h

theorem countWithinLimit_iff_eq {s : State} (h : s.run = .halted .instructionLimit) :
    CountWithinLimit s ↔ s.maxIC = some s.ic := by
  rw [CountWithinLimit, h]

/-- The trace records that a run halted by `c` has emitted beyond IC: the one of the instruction that
halted at its dispatch, which is not counted (R111). -/
def uncountedRecords (c : HaltCause) : Nat := if c = .instructionLimit then 0 else 1

theorem outputFollowsProtocol_running {s : State} (h : s.run = .running) :
    OutputFollowsProtocol s ↔
      ∃ records : List TraceRecord, s.output = records.map .trace ∧ records.length = s.ic := by
  rw [OutputFollowsProtocol, h]

theorem outputFollowsProtocol_halted {s : State} {c : HaltCause} (h : s.run = .halted c) :
    OutputFollowsProtocol s ↔ ∃ records : List TraceRecord,
      s.output = records.map .trace ++ [.report c] ∧
        records.length = s.ic + uncountedRecords c := by
  rw [OutputFollowsProtocol, h]
  cases c with
  | hlt | illegalInstruction | instructionLimit => rfl

/-- The byte before PC says why the dispatch halted. -/
theorem haltByteBeforePc_of_dispatchHalts {s : State} {c : HaltCause} (h : s.run = .halted c)
    (hbyte : DispatchHalts c ((s.readByte (s.pc - 1)).toNat / 16)) : HaltByteBeforePc s := by
  rw [HaltByteBeforePc, h]
  cases c with
  | hlt | illegalInstruction => exact hbyte
  | instructionLimit => trivial

/-! ## Every step of a Running engine keeps the clauses -/

/-- A halt at the dispatch leaves IC below the limit, and the count brings it at most to the limit. -/
theorem step_keeps_countWithinLimit {s t : State} (hr : s.run = .running)
    (hs : CountWithinLimit s) (h : step s = .next t) : CountWithinLimit t := by
  have hlt := (countWithinLimit_iff_lt (by simp [hr])).mp hs
  rcases step_ends_by_opcode hr h with ⟨c, hc, _, _, hic, hmax, hrun, _⟩ | ⟨_, _, hcounted⟩
  · refine (countWithinLimit_iff_lt ?_).mpr fun n hn => hic ▸ hlt n (hmax ▸ hn)
    simpa [hrun] using hc.ne_instructionLimit
  · obtain ⟨hic, hmax, ⟨hl, hrun, _⟩ | ⟨hl, hrun, _⟩⟩ := countedStep_cases hcounted
    · rw [countWithinLimit_iff_eq hrun, hmax, hic]
      exact hl
    · refine (countWithinLimit_iff_lt (by simp [hrun])).mpr fun n hn => ?_
      rw [hmax] at hn
      have hbelow := hlt n hn
      have hne : n ≠ s.ic + 1 := by
        rintro rfl
        exact hl hn
      omega

/-- A Running step adds one record; if it halts, the report of the cause follows. -/
theorem step_keeps_outputFollowsProtocol {s t : State} (hr : s.run = .running)
    (hs : OutputFollowsProtocol s) (h : step s = .next t) : OutputFollowsProtocol t := by
  obtain ⟨records, hout, hlength⟩ := (outputFollowsProtocol_running hr).mp hs
  rcases step_ends_by_opcode hr h with ⟨c, hc, _, _, hic, _, hrun, hemit⟩ | ⟨_, _, hcounted⟩
  · refine (outputFollowsProtocol_halted hrun).mpr ⟨records ++ [s.record], ?_, ?_⟩
    · simp [hemit, hout]
    · simp [hic, hlength, uncountedRecords, hc.ne_instructionLimit]
  · obtain ⟨hic, _, ⟨_, hrun, hemit⟩ | ⟨_, hrun, hemit⟩⟩ := countedStep_cases hcounted
    · refine (outputFollowsProtocol_halted hrun).mpr ⟨records ++ [s.record], ?_, ?_⟩
      · simp [hemit, hout]
      · simp [hic, hlength, uncountedRecords]
    · refine (outputFollowsProtocol_running hrun).mpr ⟨records ++ [s.record], ?_, ?_⟩
      · simp [hemit, hout]
      · simp [hic, hlength]

/-- The one record that a Running step adds is whole. -/
theorem step_keeps_recordsWhole {s t : State} (hr : s.run = .running)
    (hs : ∀ r ∈ s.traces, r.mem.length = 16) (h : step s = .next t) :
    ∀ r ∈ t.traces, r.mem.length = 16 := by
  obtain ⟨emits, _⟩ := traceRecordPrecedesEveryStep
  obtain ⟨v, r, _, hstep, _, htraces, hwhole, _⟩ := emits s hr
  obtain rfl := Host.Outcome.next.inj (hstep.symm.trans h)
  intro q hq
  rw [htraces, List.mem_append, List.mem_singleton] at hq
  rcases hq with hq | rfl
  · exact hs q hq
  · exact hwhole

/-- After a halt at the dispatch PC is past the byte that halted, and memory is as it was. -/
theorem step_haltByteBeforePc {s t : State} (hr : s.run = .running) (h : step s = .next t) :
    HaltByteBeforePc t := by
  rcases step_ends_by_opcode hr h with ⟨c, hc, hmem, hpc, _, _, hrun, _⟩ | ⟨_, _, hcounted⟩
  · obtain ⟨_, hbyte⟩ := readByte_before_pc hpc hmem
    exact haltByteBeforePc_of_dispatchHalts hrun (by rwa [hbyte])
  · obtain ⟨_, _, ⟨_, hrun, _⟩ | ⟨_, hrun, _⟩⟩ := countedStep_cases hcounted <;>
      · rw [HaltByteBeforePc, hrun]
        trivial

/-- Settles O40: a Halted engine stays as it is, and a Running step keeps each clause. -/
theorem everyStepKeepsSafety : Obligations.EveryStepKeepsSafety := by
  unfold Obligations.EveryStepKeepsSafety
  intro s t hs h
  rcases s.run_cases with hr | ⟨c, hc⟩
  · exact {
      memoryCanonical := everyStepKeepsMemoryCanonical s t hs.memoryCanonical h
      limitPositive := step_maxIC h ▸ hs.limitPositive
      countWithinLimit := step_keeps_countWithinLimit hr hs.countWithinLimit h
      outputFollowsProtocol := step_keeps_outputFollowsProtocol hr hs.outputFollowsProtocol h
      recordsWhole := step_keeps_recordsWhole hr hs.recordsWhole h
      haltByteBeforePc := step_haltByteBeforePc hr h }
  · obtain rfl := Host.Outcome.next.inj ((step_halted hc).symm.trans h)
    exact hs

/-- Settles O39: a fresh engine has emitted nothing and counted nothing, below a limit that is not 0. -/
theorem everyLoadIsSafe : Obligations.EveryLoadIsSafe := by
  unfold Obligations.EveryLoadIsSafe
  intro image limit _ t h
  obtain ⟨hlength, hlimit, rfl⟩ := load_eq_next h
  exact {
    memoryCanonical := Memory.ofImage_wf hlength
    limitPositive := hlimit
    countWithinLimit := fun n hn => Nat.pos_of_ne_zero fun hzero => hlimit (hzero ▸ hn)
    outputFollowsProtocol := ⟨[], rfl, rfl⟩
    recordsWhole := nofun
    haltByteBeforePc := trivial }

/-! ## Runs from a load -/

/-- What every step keeps, every run keeps. -/
theorem runSteps_keeps {P : State → Prop} (hstep : ∀ s t, P s → step s = .next t → P t) (k : Nat)
    {s t : State} (hs : P s) (h : runSteps k s = .next t) : P t := by
  induction k generalizing s with
  | zero => exact Host.Outcome.next.inj h ▸ hs
  | succ k ih =>
    obtain ⟨u, hu⟩ := step_answers_next s
    rw [runSteps_succ k hu] at h
    exact ih (hstep s u hs hu) h

/-- A run from a load is always in a safe state with the MAX_IC that was loaded. -/
theorem runSteps_of_load {image : List Byte} {limit : Option Nat} {before s t : State} {k : Nat}
    (hload : load image limit before = .next s) (h : runSteps k s = .next t) :
    SafeState t ∧ t.maxIC = limit := by
  have hs : SafeState s ∧ s.maxIC = limit := by
    obtain ⟨_, _, rfl⟩ := load_eq_next hload
    exact ⟨everyLoadIsSafe image limit before _ hload, rfl⟩
  refine runSteps_keeps (P := fun s => SafeState s ∧ s.maxIC = limit) ?_ k hs h
  rintro s t ⟨hsafe, hmax⟩ hstep
  exact ⟨everyStepKeepsSafety s t hsafe hstep, (step_maxIC hstep).trans hmax⟩

/-- Records, then reports: what the two lists of an output in the protocol are. -/
theorem State.traces_reports_of_output {s : State} {records : List TraceRecord}
    {causes : List HaltCause} (h : s.output = records.map .trace ++ causes.map .report) :
    s.traces = records ∧ s.reports = causes := by
  simp [State.traces, State.reports, h, List.filterMap_append, List.filterMap_map]

/-- Settles O41: the four clauses are the protocol of the safe state reached, and at the limit IC is
MAX_IC. -/
theorem runsEmitTheirRecordsAndOneReport : Obligations.RunsEmitTheirRecordsAndOneReport := by
  unfold Obligations.RunsEmitTheirRecordsAndOneReport
  intro image limit before s t k hload h
  obtain ⟨hsafe, hmax⟩ := runSteps_of_load hload h
  have hhalted : ∀ c, t.run = .halted c → t.reports = [c] ∧
      t.output.getLast? = some (.report c) ∧ t.traces.length = t.ic + uncountedRecords c := by
    intro c hc
    obtain ⟨records, hout, hlength⟩ :=
      (outputFollowsProtocol_halted hc).mp hsafe.outputFollowsProtocol
    obtain ⟨htraces, hreports⟩ := State.traces_reports_of_output (causes := [c]) hout
    exact ⟨hreports, by simp [hout], htraces ▸ hlength⟩
  refine ⟨fun hr => ?_, fun c hc => ?_, fun hc => ?_, fun hc => ?_⟩
  · obtain ⟨records, hout, hlength⟩ :=
      (outputFollowsProtocol_running hr).mp hsafe.outputFollowsProtocol
    obtain ⟨htraces, hreports⟩ := State.traces_reports_of_output (causes := []) (by simpa using hout)
    exact ⟨htraces ▸ hlength, hreports⟩
  · obtain ⟨hreports, hlast, _⟩ := hhalted c hc
    exact ⟨hreports, hlast⟩
  · rcases hc with hc | hc <;>
      · obtain ⟨_, _, hlength⟩ := hhalted _ hc
        exact hlength
  · obtain ⟨_, _, hlength⟩ := hhalted _ hc
    have hreached := (countWithinLimit_iff_eq hc).mp hsafe.countWithinLimit
    have hcount : t.traces.length = t.ic := hlength
    exact ⟨by rw [hcount, ← hmax, hreached], hcount.symm⟩

/-- A step that leaves the engine Running began Running and counted its instruction. -/
theorem step_ic_of_running {s t : State} (h : step s = .next t) (ht : t.run = .running) :
    t.ic = s.ic + 1 := by
  rcases s.run_cases with hr | ⟨c, hc⟩
  · rcases step_ends_by_opcode hr h with ⟨c, _, _, _, _, _, hrun, _⟩ | ⟨_, _, hic, _⟩
    · simp [hrun] at ht
    · exact hic
  · obtain rfl := Host.Outcome.next.inj ((step_halted hc).symm.trans h)
    simp [hc] at ht

/-- A run of `k` steps that leaves the engine Running counted `k` instructions. -/
theorem runSteps_ic_of_running (k : Nat) {s t : State} (h : runSteps k s = .next t)
    (ht : t.run = .running) : t.ic = s.ic + k := by
  induction k generalizing s with
  | zero => rw [Host.Outcome.next.inj h, Nat.add_zero]
  | succ k ih =>
    obtain ⟨u, hu⟩ := step_answers_next s
    rw [runSteps_succ k hu] at h
    have hur : u.run = .running := by
      rcases u.run_cases with hr | ⟨c, hc⟩
      · exact hr
      · obtain rfl := Host.Outcome.next.inj ((runSteps_halted hc k).symm.trans h)
        exact ht
    rw [ih h, step_ic_of_running hu hur]
    omega

/-- Settles O42: a run of `n` steps that were still Running would have counted `n` instructions, and a
safe Running state has counted fewer. -/
theorem limitBoundsEveryRun : Obligations.LimitBoundsEveryRun := by
  unfold Obligations.LimitBoundsEveryRun
  intro image n before s hload
  obtain ⟨t, h⟩ := noRunFaultsOrIsRefused n s
  obtain ⟨hsafe, hmax⟩ := runSteps_of_load hload h
  have hcount := hsafe.countWithinLimit
  have hbelow : t.run ≠ .halted .instructionLimit → t.ic < n := fun hne =>
    (countWithinLimit_iff_lt hne).mp hcount n hmax
  rcases t.run_cases with hr | ⟨c, hc⟩
  · have hzero : s.ic = 0 := by
      obtain ⟨_, _, rfl⟩ := load_eq_next hload
      rfl
    have hic := runSteps_ic_of_running n h hr
    have hlt := hbelow (by simp [hr])
    omega
  · refine ⟨t, c, h, hc, ?_⟩
    by_cases hl : c = .instructionLimit
    · subst hl
      have hreached := (countWithinLimit_iff_eq hc).mp hcount
      have hic : t.ic = n := by simpa [hmax] using hreached.symm
      exact ⟨hic.le, iff_of_true hic rfl⟩
    · have hlt := hbelow (by simpa [hc] using hl)
      exact ⟨hlt.le, iff_of_false hlt.ne hl⟩

/-! ## Refused loads (R192, R193) -/

/-- A load that is refused does not change the engine. -/
theorem State.offerLoad_refused {s : State} {image : List Byte} {limit : Option Nat} {r : Refusal}
    (h : load image limit s = .refused r) : s.offerLoad image limit = s := by
  rw [State.offerLoad, h]

/-- Settles O34: the length is looked at first, then the limit. -/
theorem illFormedLoadsAreRefused : Obligations.IllFormedLoadsAreRefused := by
  unfold Obligations.IllFormedLoadsAreRefused
  refine ⟨fun image limit s hne => ?_, fun image s hlength => ?_⟩
  · rcases load_cases image limit s with ⟨_, e⟩ | ⟨hlength, _⟩ | ⟨hlength, _⟩
    · exact ⟨e, State.offerLoad_refused e⟩
    · exact absurd hlength hne
    · exact absurd hlength hne
  · rcases load_cases image (some 0) s with ⟨hne, _⟩ | ⟨_, _, e⟩ | ⟨_, hpos, _⟩
    · exact absurd hlength hne
    · exact ⟨e, State.offerLoad_refused e⟩
    · exact absurd rfl hpos

/-! ## Halt causes and the final state (R171, R36) -/

theorem HaltCause.isError_iff (c : HaltCause) : c.isError = true ↔ c = .illegalInstruction := by
  cases c with
  | illegalInstruction => exact iff_of_true rfl rfl
  | hlt | instructionLimit => exact iff_of_false nofun nofun

theorem HaltCause.code_injective : Function.Injective HaltCause.code := by
  intro c d h
  cases c <;> cases d <;> simp [HaltCause.code] at h ⊢

/-- Settles O44. -/
theorem haltCausesHaveTheirCodes : Obligations.HaltCausesHaveTheirCodes :=
  ⟨rfl, rfl, rfl, HaltCause.isError_iff, fun _ _ h => HaltCause.code_injective h⟩

/-- A Running engine shows no final state. -/
theorem State.finalState_running {s : State} (h : s.run = .running) : s.finalState = none := by
  rw [State.finalState, h]

/-- Settles O45. -/
theorem finalStateIsObservableOnlyWhenHalted : Obligations.FinalStateIsObservableOnlyWhenHalted := by
  unfold Obligations.FinalStateIsObservableOnlyWhenHalted
  intro s
  rcases s.run_cases with hr | ⟨c, hc⟩
  · simp [State.finalState_running hr, hr]
  · exact ⟨fun _ => ⟨c, hc⟩, fun _ => ⟨_, State.finalState_halted hc⟩⟩

end Sys2Proof.Machine
end
